-- ==== Sys2Proof/Word.lean ====
section
/-! DEFINITION. The widths of the machine's values (spec/00_scope.md R5, R10). Every value is unsigned. -/

namespace Sys2Proof

/-- 8 bits: a V register, a timer, a memory cell, an immediate kk. -/
abbrev Byte := BitVec 8

/-- 16 bits: an instruction word, `pc`, `I`, a stack entry. -/
abbrev Word := BitVec 16

/-- 4 bits: a register field x or y, the immediate n, a key code, `wait_x`. -/
abbrev Nibble := BitVec 4

/-- 12 bits: the immediate nnn. -/
abbrev Imm12 := BitVec 12

end Sys2Proof
end

