-- ==== Sys2Proof/Syntax.lean ====
section
/-! DEFINITION. The instructions: one constructor per row of spec/opcode_table.json, in the table's order
(spec/30_encoding.md R95). The operand fields have exactly the widths of R91, so a term names no operand that an
instruction word could not hold. -/

namespace Sys2Proof

inductive Instr where
  /-- 00E0 `CLS`: clear display (R200). -/
  | cls
  /-- 00EE `RET`: return (R140). -/
  | ret
  /-- 1nnn `JP nnn`: jump (R141). -/
  | jp (nnn : Imm12)
  /-- 2nnn `CALL nnn`: call (R142). -/
  | call (nnn : Imm12)
  /-- 3xkk `SE Vx, kk`: skip if Vx == kk (R143). -/
  | seImm (x : Nibble) (kk : Byte)
  /-- 4xkk `SNE Vx, kk`: skip if Vx != kk (R144). -/
  | sneImm (x : Nibble) (kk : Byte)
  /-- 5xy0 `SE Vx, Vy`: skip if Vx == Vy (R145). -/
  | seReg (x y : Nibble)
  /-- 6xkk `LD Vx, kk`: load (R160). -/
  | ldImm (x : Nibble) (kk : Byte)
  /-- 7xkk `ADD Vx, kk`: add, no flag (R161). -/
  | addImm (x : Nibble) (kk : Byte)
  /-- 8xy0 `LD Vx, Vy` (R162). -/
  | ldReg (x y : Nibble)
  /-- 8xy1 `OR Vx, Vy` (R163). -/
  | orReg (x y : Nibble)
  /-- 8xy2 `AND Vx, Vy` (R164). -/
  | andReg (x y : Nibble)
  /-- 8xy3 `XOR Vx, Vy` (R165). -/
  | xorReg (x y : Nibble)
  /-- 8xy4 `ADD Vx, Vy`: add with carry out (R166). -/
  | addReg (x y : Nibble)
  /-- 8xy5 `SUB Vx, Vy`: Vx minus Vy (R167). -/
  | subReg (x y : Nibble)
  /-- 8xy6 `SHR Vx`: the y field is decoded and not used (R92, R168). -/
  | shr (x y : Nibble)
  /-- 8xy7 `SUBN Vx, Vy`: Vy minus Vx (R169). -/
  | subnReg (x y : Nibble)
  /-- 8xyE `SHL Vx`: the y field is decoded and not used (R92, R170). -/
  | shl (x y : Nibble)
  /-- 9xy0 `SNE Vx, Vy`: skip if Vx != Vy (R146). -/
  | sneReg (x y : Nibble)
  /-- Annn `LD I, nnn`: load index (R180). -/
  | ldI (nnn : Imm12)
  /-- Bnnn `JP V0, nnn`: jump with offset (R147). -/
  | jpV0 (nnn : Imm12)
  /-- Cxkk `RND Vx, kk`: random (R171). -/
  | rnd (x : Nibble) (kk : Byte)
  /-- Dxyn `DRW Vx, Vy, n`: draw sprite (R201). -/
  | drw (x y n : Nibble)
  /-- Ex9E `SKP Vx`: skip if the key is pressed (R220). -/
  | skp (x : Nibble)
  /-- ExA1 `SKNP Vx`: skip if the key is not pressed (R221). -/
  | sknp (x : Nibble)
  /-- Fx07 `LD Vx, DT`: get the delay timer (R222). -/
  | ldVxDT (x : Nibble)
  /-- Fx0A `LD Vx, K`: wait for key (R223). -/
  | ldVxK (x : Nibble)
  /-- Fx15 `LD DT, Vx`: set the delay timer (R224). -/
  | ldDTVx (x : Nibble)
  /-- Fx18 `LD ST, Vx`: set the sound timer (R225). -/
  | ldSTVx (x : Nibble)
  /-- Fx1E `ADD I, Vx`: add to index (R181). -/
  | addI (x : Nibble)
  /-- Fx29 `LD F, Vx`: font address (R182). -/
  | ldF (x : Nibble)
  /-- Fx33 `LD B, Vx`: BCD decompose (R183). -/
  | ldB (x : Nibble)
  /-- Fx55 `LD [I], Vx`: register dump (R184). -/
  | dump (x : Nibble)
  /-- Fx65 `LD Vx, [I]`: register load (R185). -/
  | load (x : Nibble)
  deriving DecidableEq, Repr

end Sys2Proof
end

