-- ==== Sys2Proof/Decode.lean ====
section
/-! DEFINITION. The decoder and, after it, the encoder (spec/30_encoding.md R90 to R97).

A word selects the instruction whose row of R95 satisfies `op & mask == match`; a word that matches no row is rejected by
name. The encoder puts the same match value and fields together. -/

namespace Sys2Proof

/-! ## The fields of a word (R91) -/

def fieldX (w : Word) : Nibble := w.extractLsb' 8 4
def fieldY (w : Word) : Nibble := w.extractLsb' 4 4
def fieldN (w : Word) : Nibble := w.extractLsb' 0 4
def fieldKK (w : Word) : Byte := w.extractLsb' 0 8
def fieldNNN (w : Word) : Imm12 := w.extractLsb' 0 12

/-! ## The opcode map (R95) -/

/-- One row of R95: the bits compared, their values, and the instruction with its fields taken from the word. -/
structure OpRow where
  mask : Word
  pattern : Word
  build : Word → Instr

/-- The word is one of the row's (R94). -/
def OpRow.hits (r : OpRow) (w : Word) : Bool := w &&& r.mask == r.pattern

/-- Rows 00E0 to 7xkk. -/
def opRowsLow : List OpRow :=
  [ ⟨0xFFFF, 0x00E0, fun _ => .cls⟩,
    ⟨0xFFFF, 0x00EE, fun _ => .ret⟩,
    ⟨0xF000, 0x1000, fun w => .jp (fieldNNN w)⟩,
    ⟨0xF000, 0x2000, fun w => .call (fieldNNN w)⟩,
    ⟨0xF000, 0x3000, fun w => .seImm (fieldX w) (fieldKK w)⟩,
    ⟨0xF000, 0x4000, fun w => .sneImm (fieldX w) (fieldKK w)⟩,
    ⟨0xF00F, 0x5000, fun w => .seReg (fieldX w) (fieldY w)⟩,
    ⟨0xF000, 0x6000, fun w => .ldImm (fieldX w) (fieldKK w)⟩,
    ⟨0xF000, 0x7000, fun w => .addImm (fieldX w) (fieldKK w)⟩ ]

/-- Rows 8xy0 to Dxyn. -/
def opRowsMid : List OpRow :=
  [ ⟨0xF00F, 0x8000, fun w => .ldReg (fieldX w) (fieldY w)⟩,
    ⟨0xF00F, 0x8001, fun w => .orReg (fieldX w) (fieldY w)⟩,
    ⟨0xF00F, 0x8002, fun w => .andReg (fieldX w) (fieldY w)⟩,
    ⟨0xF00F, 0x8003, fun w => .xorReg (fieldX w) (fieldY w)⟩,
    ⟨0xF00F, 0x8004, fun w => .addReg (fieldX w) (fieldY w)⟩,
    ⟨0xF00F, 0x8005, fun w => .subReg (fieldX w) (fieldY w)⟩,
    ⟨0xF00F, 0x8006, fun w => .shr (fieldX w) (fieldY w)⟩,
    ⟨0xF00F, 0x8007, fun w => .subnReg (fieldX w) (fieldY w)⟩,
    ⟨0xF00F, 0x800E, fun w => .shl (fieldX w) (fieldY w)⟩,
    ⟨0xF00F, 0x9000, fun w => .sneReg (fieldX w) (fieldY w)⟩,
    ⟨0xF000, 0xA000, fun w => .ldI (fieldNNN w)⟩,
    ⟨0xF000, 0xB000, fun w => .jpV0 (fieldNNN w)⟩,
    ⟨0xF000, 0xC000, fun w => .rnd (fieldX w) (fieldKK w)⟩,
    ⟨0xF000, 0xD000, fun w => .drw (fieldX w) (fieldY w) (fieldN w)⟩ ]

/-- Rows Ex9E to Fx65. -/
def opRowsHigh : List OpRow :=
  [ ⟨0xF0FF, 0xE09E, fun w => .skp (fieldX w)⟩,
    ⟨0xF0FF, 0xE0A1, fun w => .sknp (fieldX w)⟩,
    ⟨0xF0FF, 0xF007, fun w => .ldVxDT (fieldX w)⟩,
    ⟨0xF0FF, 0xF00A, fun w => .ldVxK (fieldX w)⟩,
    ⟨0xF0FF, 0xF015, fun w => .ldDTVx (fieldX w)⟩,
    ⟨0xF0FF, 0xF018, fun w => .ldSTVx (fieldX w)⟩,
    ⟨0xF0FF, 0xF01E, fun w => .addI (fieldX w)⟩,
    ⟨0xF0FF, 0xF029, fun w => .ldF (fieldX w)⟩,
    ⟨0xF0FF, 0xF033, fun w => .ldB (fieldX w)⟩,
    ⟨0xF0FF, 0xF055, fun w => .dump (fieldX w)⟩,
    ⟨0xF0FF, 0xF065, fun w => .load (fieldX w)⟩ ]

/-- The opcode map, 34 rows in the order of R95. -/
def opRows : List OpRow := opRowsLow ++ opRowsMid ++ opRowsHigh

/-! ## Decoding -/

/-- Decode one word (R94); `none` is the DecodeError of R96. DESIGN CHOICE of the spec (D8): every fixed digit is compared,
log 16. -/
def decode (w : Word) : Option Instr := (opRows.find? (·.hits w)).map (·.build w)

/-- Why bytes are no instruction. -/
inductive DecodeReject where
  /-- The word matches no row of R95; executing it raises DecodeError (R96). -/
  | noSuchInstruction (w : Word)
  /-- Fewer than the two bytes every instruction has (R90). It cannot arise in a step, whose fetch always finds two. -/
  | tooShort
  deriving DecidableEq, Repr

/-- What the decoder makes of bytes: an instruction and the bytes after it, or a rejection by name. -/
inductive DecodeOutcome where
  | decoded (i : Instr) (rest : List Byte)
  | rejected (r : DecodeReject)
  deriving DecidableEq, Repr

/-- The instruction word of two bytes, the byte at the lower address first: big-endian (spec/20_memory.md R64). -/
def wordOf (hi lo : Byte) : Word := hi ++ lo

/-- The more significant byte of a word, the one at the lower address (R64). -/
def highByte (w : Word) : Byte := w.extractLsb' 8 8

/-- The less significant byte of a word (R64). -/
def lowByte (w : Word) : Byte := w.extractLsb' 0 8

/-- Decode the instruction at the head of any list of bytes. Every instruction has two bytes (R90). -/
def decodeBytes : List Byte → DecodeOutcome
  | hi :: lo :: rest =>
    match decode (wordOf hi lo) with
    | some i => .decoded i rest
    | none => .rejected (.noSuchInstruction (wordOf hi lo))
  | _ => .rejected .tooShort

/-- The word that the host's number w of nbits bits stands for: the bits above nbits are 0, and an instruction has 16. -/
def tableWord (nbits w : Nat) : Word := BitVec.ofNat 16 (w % 2 ^ nbits)

/-- The host's question: what the decoder reads from a row's bits w, laid out as the hardware stores them. -/
def decodeTableWord (nbits w : Nat) : Option Instr :=
  match decodeBytes [highByte (tableWord nbits w), lowByte (tableWord nbits w)] with
  | .decoded i _ => some i
  | .rejected _ => none

/-! ## Encoding -/

/-- A field at its place in the word: its bit 0 at bit lo (R91). -/
def place {n : Nat} (f : BitVec n) (lo : Nat) : Word := f.setWidth 16 <<< lo

/-- Format NNN of R92. -/
def encNNN (pattern : Word) (nnn : Imm12) : Word := pattern ||| place nnn 0

/-- Format XKK of R92. -/
def encXKK (pattern : Word) (x : Nibble) (kk : Byte) : Word := pattern ||| place x 8 ||| place kk 0

/-- Format XY of R92. -/
def encXY (pattern : Word) (x y : Nibble) : Word := pattern ||| place x 8 ||| place y 4

/-- Format XYN of R92. -/
def encXYN (pattern : Word) (x y n : Nibble) : Word := pattern ||| place x 8 ||| place y 4 ||| place n 0

/-- Format X of R92. -/
def encX (pattern : Word) (x : Nibble) : Word := pattern ||| place x 8

/-- The word of an instruction (R95): the match value of its row with its fields in place. -/
def encode : Instr → Word
  | .cls => 0x00E0
  | .ret => 0x00EE
  | .jp nnn => encNNN 0x1000 nnn
  | .call nnn => encNNN 0x2000 nnn
  | .seImm x kk => encXKK 0x3000 x kk
  | .sneImm x kk => encXKK 0x4000 x kk
  | .seReg x y => encXY 0x5000 x y
  | .ldImm x kk => encXKK 0x6000 x kk
  | .addImm x kk => encXKK 0x7000 x kk
  | .ldReg x y => encXY 0x8000 x y
  | .orReg x y => encXY 0x8001 x y
  | .andReg x y => encXY 0x8002 x y
  | .xorReg x y => encXY 0x8003 x y
  | .addReg x y => encXY 0x8004 x y
  | .subReg x y => encXY 0x8005 x y
  | .shr x y => encXY 0x8006 x y
  | .subnReg x y => encXY 0x8007 x y
  | .shl x y => encXY 0x800E x y
  | .sneReg x y => encXY 0x9000 x y
  | .ldI nnn => encNNN 0xA000 nnn
  | .jpV0 nnn => encNNN 0xB000 nnn
  | .rnd x kk => encXKK 0xC000 x kk
  | .drw x y n => encXYN 0xD000 x y n
  | .skp x => encX 0xE09E x
  | .sknp x => encX 0xE0A1 x
  | .ldVxDT x => encX 0xF007 x
  | .ldVxK x => encX 0xF00A x
  | .ldDTVx x => encX 0xF015 x
  | .ldSTVx x => encX 0xF018 x
  | .addI x => encX 0xF01E x
  | .ldF x => encX 0xF029 x
  | .ldB x => encX 0xF033 x
  | .dump x => encX 0xF055 x
  | .load x => encX 0xF065 x

end Sys2Proof
end

