-- ==== Sys2Proof/Config.lean ====
section
/-! DEFINITION. The fixed sizes of spec/00_scope.md R5, the default of the parameter STACK_DEPTH (R6), the operations the
surroundings invoke (R7), and the free values that stand for what the surroundings choose: the inputs `keys` and `rnd`
(spec/10_state.md R32, spec/00_scope.md R9) and the order of operations (spec/60_exceptions.md R251). -/

namespace Sys2Proof

/-- MEM_SIZE: addresses 0x000 to 0xFFF (R5). -/
abbrev Config.memSize : Nat := 4096

/-- PROG_BASE: where a program image starts, and the reset value of `pc` (R5). -/
abbrev Config.progBase : Nat := 0x200

/-- MAX_PROGRAM: the longest image that fits, 4096 minus 0x200 (R5). -/
abbrev Config.maxProgram : Nat := 3584

/-- FB_W: pixels in a row of the framebuffer (R5). -/
abbrev Config.fbWidth : Nat := 64

/-- FB_H: rows of the framebuffer (R5). -/
abbrev Config.fbHeight : Nat := 32

/-- GLYPH_BYTES: the stride of the font table, which starts at address 0 (R5). -/
abbrev Config.glyphBytes : Nat := 5

/-- The default of STACK_DEPTH (R6, D2). The machine's own depth is `State.stackDepth`. DESIGN CHOICE, log 5. -/
abbrev Config.defaultStackDepth : Nat := 16

/-- FREE VALUE (log 3): the level of the 16 keys at the n-th sample, once the scripted samples are used up. Nothing
constrains it: R32 says that two samples may differ without any operation of the core in between. -/
opaque Config.freeKeys : Nat → BitVec 16

/-- FREE VALUE (log 4): the n-th random byte, once the scripted draws are used up. Nothing constrains it (R9: "a free
8-bit draw at each execution of Cxkk, under no law"). -/
opaque Config.freeDraw : Nat → Byte

/-- The five operations of the core (spec/00_scope.md R7). -/
inductive Machine.Operation where
  /-- `Reset` (R280). -/
  | reset
  /-- `LoadProgram(bytes)` (R282). -/
  | loadProgram (bytes : List Byte)
  /-- `Step` (R120). -/
  | step
  /-- `TimerTick` (R250). -/
  | timerTick
  /-- `DeliverKey(k)` (R249); k has 4 bits, so no code above 15 exists. -/
  | deliverKey (k : Nibble)
  deriving DecidableEq, Repr, Inhabited

/-- FREE VALUE (log 1): the n-th operation the surroundings invoke, once the scripted ones are used up. Nothing constrains
it (R251: "in any order and any proportion", and an execution may be infinite). -/
opaque Config.freeOperation : Nat → Machine.Operation

end Sys2Proof
end

