-- ==== Sys2Proof/Machine/State.lean ====
section
/-! DEFINITION. The state of the core (spec/10_state.md R20), what its surroundings are about to do (plain data, the model's
own), and the state after reset (R34). -/

namespace Sys2Proof.Machine

/-- The contents of memory (R29): the cells that differ from their reset contents, addresses strictly rising.
`Memory.wf` is the form, `initialByte` what an unlisted address reads as. -/
abbrev Memory := List Host.Cell

/-- The framebuffer (R28): 32 rows, row 0 at the top, of 64 pixels; bit c of a row is column c, column 0 leftmost. -/
abbrev Frame := Vector (BitVec 64) 32

/-- The four errors (spec/60_exceptions.md R240). -/
inductive ErrorKind where
  /-- A fetched word that matches no row (R241). -/
  | decodeError
  /-- 00EE with an empty stack (R242). -/
  | stackUnderflow
  /-- 2nnn with a full stack (R243). -/
  | stackOverflow
  /-- An image longer than 3584 bytes (R244). -/
  | loadOverflow
  deriving DecidableEq, Repr

/-- What the surroundings do next. THE MODEL'S OWN FIELDS, not the spec's state (log 1 to 4): the order of operations
(R8, R251), the levels of `keys` (R32) and the random bytes (R9) are the surroundings' choice, so a claim about every
State is a claim about every such choice. -/
structure Environment where
  /-- The operations invoked next, first first; when none is left, `Config.freeOperation opCount` (log 1). -/
  script : List Operation
  /-- How many operations have been invoked. -/
  opCount : Nat
  /-- The next samples of `keys`; when none is left, `Config.freeKeys keyCount` (log 3). -/
  keySamples : List (BitVec 16)
  /-- How many samples have been taken. -/
  keyCount : Nat
  /-- The next draws of `rnd`; when none is left, `Config.freeDraw drawCount` (log 4). -/
  draws : List Byte
  /-- How many draws have been made. -/
  drawCount : Nat
  deriving DecidableEq, Repr

/-- The whole state of the core (R20), and the model's own `stackDepth` and `env`. -/
structure State where
  /-- V0 to VF; VF is also the flag (R21, R22). -/
  V : Vector Byte 16
  /-- The index register (R23). -/
  I : Word
  /-- The program counter (R24). -/
  pc : Word
  /-- The call stack, last pushed first; `sp` is its length (R26, D25, log 28). -/
  stack : List Word
  /-- The delay timer (R27). -/
  DT : Byte
  /-- The sound timer (R27). -/
  ST : Byte
  /-- Memory (R29). -/
  mem : Memory
  /-- The framebuffer (R28). -/
  fb : Frame
  /-- Waiting for a key (R30). -/
  paused : Bool
  /-- `wait_x`: the register the awaited key goes to (R30). -/
  waitX : Nibble
  /-- A fatal error has happened (R31). -/
  halted : Bool
  /-- `err_code`: which error (R31, R240). -/
  errCode : BitVec 3
  /-- `err_pc`: the address the faulting instruction was fetched from (R31). -/
  errPc : Word
  /-- `err_op`: the faulting instruction word (R31). -/
  errOp : Word
  /-- The parameter STACK_DEPTH (spec/00_scope.md R6); no operation writes it (log 5). -/
  stackDepth : Nat
  /-- What the surroundings do next (the model's own). -/
  env : Environment
  deriving DecidableEq, Repr

/-- No operation of this core ends in a fault: every error the spec names is a latch in a NEXT state (R245, log 8), every
address is masked (R61) and every event is defined. The type has no constructor, so nothing can raise one (safe). -/
inductive Fault where
  deriving DecidableEq, Repr

/-- Why the model has no meaning for an instruction. -/
inductive Refusal where
  /-- Raised by an arm of `exec` for an instruction not yet modelled; no arm does (safe: it would stop a run). -/
  | notModelled (mnemonic : String)
  deriving DecidableEq, Repr

/-- The surroundings at reset: nothing scripted (DESIGN CHOICE, log 2). -/
def Environment.initial : Environment where
  script := []
  opCount := 0
  keySamples := []
  keyCount := 0
  draws := []
  drawCount := 0

/-- The state after `Reset` (R34). Memory lists nothing: an unlisted address reads as its reset contents. -/
def State.reset : State where
  V := Vector.replicate 16 0
  I := 0
  pc := BitVec.ofNat 16 Config.progBase
  stack := []
  DT := 0
  ST := 0
  mem := []
  fb := Vector.replicate 32 0
  paused := false
  waitX := 0
  halted := false
  errCode := 0
  errPc := 0
  errOp := 0
  stackDepth := Config.defaultStackDepth
  env := Environment.initial

end Sys2Proof.Machine
end

