-- ==== Sys2Proof/Machine/Frame.lean ====
section
/-! DEFINITION. The framebuffer's pixels (spec/10_state.md R28) and the draw engine (spec/44_display.md R201, R204). -/

namespace Sys2Proof.Machine

/-- The row a coordinate names: modulo the height, never clipped (R28). -/
def frameRow (row : Nat) : Nat := row % Config.fbHeight

/-- The column a coordinate names: modulo the width, never clipped (R28). -/
def frameCol (col : Nat) : Nat := col % Config.fbWidth

theorem frameRow_lt (row : Nat) : frameRow row < 32 := Nat.mod_lt _ (by decide)

/-- Pixel (col, row) of R28, both coordinates wrapped. -/
def Frame.pixel (f : Frame) (row col : Nat) : Bool :=
  (f[frameRow row]'(frameRow_lt row)).getLsbD (frameCol col)

/-- The pixel exclusive-ored with 1 (R201). -/
def Frame.flip (f : Frame) (row col : Nat) : Frame :=
  f.set (frameRow row) ((f[frameRow row]'(frameRow_lt row)) ^^^ BitVec.twoPow 64 (frameCol col)) (frameRow_lt row)

/-- All 2048 pixels 0 (R200). -/
def Frame.clear : Frame := Vector.replicate 32 0

/-- Bit 7-c of a sprite byte is the pixel in column c from the left (R204). -/
def spriteBit (b : Byte) (c : Nat) : Bool := b.getLsbD (7 - c)

/-- The first k columns of one sprite row drawn from the left: the new frame, and whether a pixel went from set to unset
(R201). A sprite bit of 0 touches nothing. -/
def drawColumns (f : Frame) (col row : Nat) (b : Byte) : Nat → Frame × Bool
  | 0 => (f, false)
  | k + 1 =>
    let (g, hit) := drawColumns f col row b k
    if spriteBit b k then (g.flip row (col + k), hit || g.pixel row (col + k)) else (g, hit)

/-- One sprite row: eight columns (R204). -/
def drawRow (f : Frame) (col row : Nat) (b : Byte) : Frame × Bool := drawColumns f col row b 8

/-- The rows of a sprite from the top down, collisions accumulated over the whole sprite (R201). -/
def drawSprite (f : Frame) (col row : Nat) : List Byte → Frame × Bool
  | [] => (f, false)
  | b :: bs =>
    let (g, hit) := drawRow f col row b
    let (h, more) := drawSprite g col (row + 1) bs
    (h, hit || more)

end Sys2Proof.Machine
end

