-- ==== Sys2Proof/Machine/Memory.lean ====
section
/-! DEFINITION. Memory as a list in one canonical form, read and written one byte at a time (spec/20_memory.md R60 to R63).
Every byte's address is masked to 12 bits here and nowhere else (R61), so no access is out of range. -/

namespace Sys2Proof.Machine

/-- FONT, digits 0 to 7 (R63). -/
def fontLow : List Byte :=
  [ 0xF0, 0x90, 0x90, 0x90, 0xF0,
    0x20, 0x60, 0x20, 0x20, 0x70,
    0xF0, 0x10, 0xF0, 0x80, 0xF0,
    0xF0, 0x10, 0xF0, 0x10, 0xF0,
    0x90, 0x90, 0xF0, 0x10, 0x10,
    0xF0, 0x80, 0xF0, 0x10, 0xF0,
    0xF0, 0x80, 0xF0, 0x90, 0xF0,
    0xF0, 0x10, 0x20, 0x40, 0x40 ]

/-- FONT, digits 8 to F (R63). -/
def fontHigh : List Byte :=
  [ 0xF0, 0x90, 0xF0, 0x90, 0xF0,
    0xF0, 0x90, 0xF0, 0x10, 0xF0,
    0xF0, 0x90, 0xF0, 0x90, 0x90,
    0xE0, 0x90, 0xE0, 0x90, 0xE0,
    0xF0, 0x80, 0x80, 0x80, 0xF0,
    0xE0, 0x90, 0x90, 0x90, 0xE0,
    0xF0, 0x80, 0xF0, 0x80, 0xF0,
    0xF0, 0x80, 0xF0, 0x80, 0x80 ]

/-- The configuration constant FONT of R63, five bytes a digit, top row first. PRESUMED (D27, log 6): the source does not
print the bytes, so a claim about the pixels of a glyph rests on this table. -/
def FONT : List Byte := fontLow ++ fontHigh

/-- What address a (below 4096) holds after Reset, and so what an unlisted address reads as (R34, R62): the font table from
0x000, zero above it. -/
def initialByte (a : Nat) : Byte := FONT.getD a 0

/-- The mask `addr & 0xFFF` of R61. -/
def maskAddr (a : Nat) : Nat := a % Config.memSize

/-- The byte listed for address a, else its reset contents. -/
def Memory.cellAt : Memory → Nat → Byte
  | [], a => initialByte a
  | (a', b) :: m, a => if a = a' then b else Memory.cellAt m a

/-- List byte b at address a, keeping the canonical form: the reset contents are not listed. -/
def Memory.setCell : Memory → Nat → Byte → Memory
  | [], a, b => if b = initialByte a then [] else [(a, b)]
  | (a', b') :: m, a, b =>
    if a < a' then
      if b = initialByte a then (a', b') :: m else (a, b) :: (a', b') :: m
    else if a = a' then
      if b = initialByte a then m else (a, b) :: m
    else (a', b') :: Memory.setCell m a b

/-- `MemRead(addr, 1)` (R61). -/
def Memory.read (m : Memory) (addr : Nat) : Byte := Memory.cellAt m (maskAddr addr)

/-- `MemWrite(addr, 1, v)` (R61). -/
def Memory.write (m : Memory) (addr : Nat) (v : Byte) : Memory := Memory.setCell m (maskAddr addr) v

/-- Bytes written at base, base + 1, ... in that order, each address masked on its own (R61, R66). -/
def Memory.writeBytes : Memory → Nat → List Byte → Memory
  | m, _, [] => m
  | m, base, b :: bs => Memory.writeBytes (Memory.write m base b) (base + 1) bs

/-- Addresses at least lo, strictly rising, below 4096, and no entry equal to the reset contents. -/
def Memory.wfFrom : Nat → Memory → Bool
  | _, [] => true
  | lo, (a, b) :: m => lo ≤ a && a < Config.memSize && b != initialByte a && Memory.wfFrom (a + 1) m

/-- The canonical form: equal memories are equal lists. -/
def Memory.wf (m : Memory) : Bool := Memory.wfFrom 0 m

end Sys2Proof.Machine
end

