-- ==== Sys2Proof/Machine/Ops.lean ====
section
/-! DEFINITION. The named operations over the state: the primitives of spec/00_scope.md R11, and taking an error
(spec/60_exceptions.md R245). -/

namespace Sys2Proof.Machine

/-! ## Registers (R11, R21) -/

/-- `V[x]`. -/
def State.getV (s : State) (x : Nibble) : Byte := s.V[x.toNat]'x.isLt

/-- `V[x] <- b`. No register is hard-wired (R21). -/
def State.setV (s : State) (x : Nibble) (b : Byte) : State := { s with V := s.V.set x.toNat b x.isLt }

/-- VF, the flag register (R22). -/
abbrev flagReg : Nibble := 0xF

/-- `I <- w`. -/
def State.setI (s : State) (w : Word) : State := { s with I := w }

/-- `pc <- target`: all 16 bits, never masked (R25). -/
def State.setPc (s : State) (w : Word) : State := { s with pc := w }

/-- `DT <- b`. -/
def State.setDT (s : State) (b : Byte) : State := { s with DT := b }

/-- `ST <- b`. -/
def State.setST (s : State) (b : Byte) : State := { s with ST := b }

/-- The call stack replaced. -/
def State.setStack (s : State) (st : List Word) : State := { s with stack := st }

/-- Memory replaced. -/
def State.setMem (s : State) (m : Memory) : State := { s with mem := m }

/-- The framebuffer replaced. -/
def State.setFb (s : State) (f : Frame) : State := { s with fb := f }

/-- The surroundings' data replaced (the model's own). -/
def State.setEnv (s : State) (e : Environment) : State := { s with env := e }

/-- The depth `sp` of the call stack (R26). -/
def State.sp (s : State) : Nat := s.stack.length

/-- `wait_x <- x; paused <- 1` (R223). -/
def State.beginWait (s : State) (x : Nibble) : State := { s with waitX := x, paused := true }

/-- `paused <- 0` (R249); `wait_x` is left as it is. -/
def State.endWait (s : State) : State := { s with paused := false }

/-! ## Memory (R11, R61) -/

/-- `MemRead(addr, 1)`. -/
def State.memRead (s : State) (addr : Nat) : Byte := s.mem.read addr

/-- Bytes stored from address base up, one byte at a time in ascending order (R66). -/
def State.storeBytes (s : State) (base : Nat) (bs : List Byte) : State := s.setMem (s.mem.writeBytes base bs)

/-- The big-endian word at address a, each byte's address masked on its own (R64, R121). -/
def State.wordAt (s : State) (a : Word) : Word := wordOf (s.memRead a.toNat) (s.memRead (a.toNat + 1))

/-! ## The step's advance and gates (R120, R122) -/

/-- `pc <- (a + 2) mod 65536`, before anything else of the instruction (R122). -/
def State.advance (s : State) : State := s.setPc (s.pc + 2)

/-- A `Step` changes nothing while the core is halted or paused (R120). -/
def State.gated (s : State) : Bool := s.halted || s.paused

/-! ## Taking an error (R245) -/

/-- The codes of R240. -/
def ErrorKind.code : ErrorKind → BitVec 3
  | .decodeError => 1
  | .stackUnderflow => 2
  | .stackOverflow => 3
  | .loadOverflow => 4

/-- `raise E(a, op)` (R245): the latch and its three companions are written and nothing else. There is no handler, and the
return from an error is `Reset` alone (R246). -/
def State.raise (s : State) (e : ErrorKind) (a op : Word) : State :=
  { s with halted := true, errCode := e.code, errPc := a, errOp := op }

/-- The address an executing instruction was fetched from: during the execute phase `pc` holds that address plus 2 modulo
65536 (R24, log 9). -/
def State.fetchAddr (s : State) : Word := s.pc - 2

/-- `raise` from the execute phase of instruction i: the recorded word is i's (R245, log 9). -/
def State.raiseIn (s : State) (i : Instr) (e : ErrorKind) : State := s.raise e s.fetchAddr (encode i)

/-- The latch of a rejected load: `halted` and `err_code` only, and only if not halted already (R244, R282). -/
def State.rejectLoad (s : State) : State :=
  { s with halted := true, errCode := if s.halted then s.errCode else ErrorKind.loadOverflow.code }

/-! ## The call stack (R26) -/

/-- `sp == STACK_DEPTH`. -/
def State.stackFull (s : State) : Bool := s.sp == s.stackDepth

/-- `stack[sp] <- w; sp <- sp + 1`. -/
def State.push (s : State) (w : Word) : State := s.setStack (w :: s.stack)

end Sys2Proof.Machine
end

