-- ==== Sys2Proof/Machine/Flags.lean ====
section
/-! DEFINITION. The values written to the flag register VF (spec/10_state.md R22) and the order of the two writes of a
flag-producing instruction (spec/42_alu.md R173). -/

namespace Sys2Proof.Machine

/-- A flag write stores 0x00 or 0x01 in all 8 bits of VF (R22). -/
def flagByte (f : Bool) : Byte := if f then 1 else 0

/-- 8xy4: the unbounded sum exceeds 255 (R166). -/
def carryFlag (a b : Byte) : Byte := flagByte (a.toNat + b.toNat > 255)

/-- 8xy5 and 8xy7: the minuend is strictly greater than the subtrahend, compared before the subtraction (R167, R169). -/
def greaterFlag (minuend subtrahend : Byte) : Byte := flagByte (minuend.toNat > subtrahend.toNat)

/-- 8xy6: bit 0 before the shift (R168). -/
def lowBitFlag (a : Byte) : Byte := flagByte (a.getLsbD 0)

/-- 8xyE: bit 7 before the shift (R170). -/
def highBitFlag (a : Byte) : Byte := flagByte (a.getLsbD 7)

/-- The flag first, the result second, both from operands read before either write; with x = F the result replaces the flag
(R173; DESIGN CHOICE of the spec, D11, log 14). -/
def State.writeFlagged (s : State) (x : Nibble) (flag result : Byte) : State := (s.setV flagReg flag).setV x result

end Sys2Proof.Machine
end

