-- ==== Sys2Proof/Machine/Operands.lean ====
section
/-! DEFINITION. Where an instruction's operands come from and go to beyond the register file: immediates
(spec/30_encoding.md R93), the bytes at I (spec/43_index_memory.md R186), the sampled inputs (spec/10_state.md R32,
spec/00_scope.md R9), and the skip (spec/41_flow.md R143). -/

namespace Sys2Proof.Machine

/-- nnn zero-extended to 16 bits (R93). -/
def immAddr (nnn : Imm12) : Word := nnn.setWidth 16

/-- A register's value zero-extended to 16 bits (R147, R181, R182). -/
def byteAddr (b : Byte) : Word := b.setWidth 16

/-- A skip: `pc <- (pc + 2) mod 65536` on the advanced `pc`, if the condition holds (R143 to R146, R220, R221). -/
def State.skipIf (s : State) (cond : Bool) : State := s.setPc (if cond then s.pc + 2 else s.pc)

/-- The registers V0 to V(k-1) as bytes, V0 first (R184). -/
def State.regBytes (s : State) (k : Nat) : List Byte := (List.range k).map fun i => s.getV (BitVec.ofNat 4 i)

/-- The k bytes of memory from address base up (R201, R204). -/
def State.memBytes (s : State) (base k : Nat) : List Byte := (List.range k).map fun i => s.memRead (base + i)

/-- V0 to V(k-1) loaded from memory at base up, V0 first (R185). -/
def State.loadRegs (s : State) (base : Nat) : Nat → State
  | 0 => s
  | k + 1 => (State.loadRegs s base k).setV (BitVec.ofNat 4 k) (s.memRead (base + k))

/-! ## The sampled inputs -/

/-- The level of the 16 keys at this sample (R32): scripted, else a free value (log 3). -/
def State.keysNow (s : State) : BitVec 16 :=
  match s.env.keySamples with
  | [] => Config.freeKeys s.env.keyCount
  | ks :: _ => ks

/-- The sample is taken; the next one is another. -/
def State.takeKeys (s : State) : State :=
  s.setEnv { s.env with keySamples := s.env.keySamples.tail, keyCount := s.env.keyCount + 1 }

/-- The key code in a register: its low 4 bits (R220, R221; DESIGN CHOICE of the spec, D13, log 13). -/
def keyCode (b : Byte) : Nibble := b.extractLsb' 0 4

/-- `keys[k]`: key k is held (R220). -/
def keyHeld (keys : BitVec 16) (k : Nibble) : Bool := keys.getLsbD k.toNat

/-- `rnd`: the byte drawn at this execution of Cxkk (R9): scripted, else a free value (log 4). -/
def State.drawNow (s : State) : Byte :=
  match s.env.draws with
  | [] => Config.freeDraw s.env.drawCount
  | d :: _ => d

/-- The draw is made; the next one is another. -/
def State.takeDraw (s : State) : State :=
  s.setEnv { s.env with draws := s.env.draws.tail, drawCount := s.env.drawCount + 1 }

end Sys2Proof.Machine
end

