-- ==== Sys2Proof/Machine/Alu.lean ====
section
/-! DEFINITION. Register load, add, the 8xy_ family, random (spec/42_alu.md R160 to R171). Operands are read before any
write (spec/40_step_cycle.md R125). -/

namespace Sys2Proof.Machine

/-- 6xkk `LD Vx, kk` (R160). -/
def execLdImm (x : Nibble) (kk : Byte) (s : State) : Host.Outcome State Fault Refusal :=
  .next (s.setV x kk)

/-- 7xkk `ADD Vx, kk` (R161): modulo 256, no flag. -/
def execAddImm (x : Nibble) (kk : Byte) (s : State) : Host.Outcome State Fault Refusal :=
  .next (s.setV x (s.getV x + kk))

/-- 8xy0 `LD Vx, Vy` (R162): VF is not written (D9, log 21). -/
def execLdReg (x y : Nibble) (s : State) : Host.Outcome State Fault Refusal :=
  .next (s.setV x (s.getV y))

/-- 8xy1 `OR Vx, Vy` (R163): VF is not written (D9, log 21). -/
def execOrReg (x y : Nibble) (s : State) : Host.Outcome State Fault Refusal :=
  .next (s.setV x (s.getV x ||| s.getV y))

/-- 8xy2 `AND Vx, Vy` (R164): VF is not written (D9, log 21). -/
def execAndReg (x y : Nibble) (s : State) : Host.Outcome State Fault Refusal :=
  .next (s.setV x (s.getV x &&& s.getV y))

/-- 8xy3 `XOR Vx, Vy` (R165): VF is not written (D9, log 21). -/
def execXorReg (x y : Nibble) (s : State) : Host.Outcome State Fault Refusal :=
  .next (s.setV x (s.getV x ^^^ s.getV y))

/-- 8xy4 `ADD Vx, Vy` (R166). -/
def execAddReg (x y : Nibble) (s : State) : Host.Outcome State Fault Refusal :=
  .next (s.writeFlagged x (carryFlag (s.getV x) (s.getV y)) (s.getV x + s.getV y))

/-- 8xy5 `SUB Vx, Vy` (R167): Vx minus Vy modulo 256. -/
def execSubReg (x y : Nibble) (s : State) : Host.Outcome State Fault Refusal :=
  .next (s.writeFlagged x (greaterFlag (s.getV x) (s.getV y)) (s.getV x - s.getV y))

/-- 8xy6 `SHR Vx` (R168): Vx is shifted, Vy is not read. -/
def execShr (x _y : Nibble) (s : State) : Host.Outcome State Fault Refusal :=
  .next (s.writeFlagged x (lowBitFlag (s.getV x)) (s.getV x >>> 1))

/-- 8xy7 `SUBN Vx, Vy` (R169): Vy minus Vx modulo 256. -/
def execSubnReg (x y : Nibble) (s : State) : Host.Outcome State Fault Refusal :=
  .next (s.writeFlagged x (greaterFlag (s.getV y) (s.getV x)) (s.getV y - s.getV x))

/-- 8xyE `SHL Vx` (R170): Vx is shifted, Vy is not read. PRESUMED (D10, log 10). -/
def execShl (x _y : Nibble) (s : State) : Host.Outcome State Fault Refusal :=
  .next (s.writeFlagged x (highBitFlag (s.getV x)) (s.getV x <<< 1))

/-- Cxkk `RND Vx, kk` (R171): one fresh draw. -/
def execRnd (x : Nibble) (kk : Byte) (s : State) : Host.Outcome State Fault Refusal :=
  .next (s.takeDraw.setV x (s.drawNow &&& kk))

end Sys2Proof.Machine
end

