-- ==== Sys2Proof/Machine/Display.lean ====
section
/-! DEFINITION. The display instructions (spec/44_display.md R200, R201). -/

namespace Sys2Proof.Machine

/-- 00E0 `CLS` (R200): VF is not written. -/
def execCls (s : State) : Host.Outcome State Fault Refusal :=
  .next (s.setFb Frame.clear)

/-- The sprite of a Dxyn: n bytes from address I up (R204). -/
def State.sprite (s : State) (n : Nibble) : List Byte := s.memBytes s.I.toNat n.toNat

/-- The draw of a Dxyn: the frame and the collision, from the coordinates and the sprite as read at the start (R201). -/
def State.drawn (s : State) (x y n : Nibble) : Frame × Bool :=
  drawSprite s.fb (s.getV x).toNat (s.getV y).toNat (s.sprite n)

/-- Dxyn `DRW Vx, Vy, n` (R201): VF is written once, after the last pixel (D11, log 14). -/
def execDrw (x y n : Nibble) (s : State) : Host.Outcome State Fault Refusal :=
  .next ((s.setFb (s.drawn x y n).1).setV flagReg (flagByte (s.drawn x y n).2))

end Sys2Proof.Machine
end

