-- ==== Sys2Proof/Machine/Flow.lean ====
section
/-! DEFINITION. Control transfer (spec/41_flow.md R140 to R147). Every meaning runs in the execute phase: `pc` is already
advanced by 2 (R122). -/

namespace Sys2Proof.Machine

/-- 00EE `RET` (R140): all 16 bits of the popped entry; StackUnderflow on an empty stack. -/
def execRet (s : State) : Host.Outcome State Fault Refusal :=
  match s.stack with
  | [] => .next (s.raiseIn .ret .stackUnderflow)
  | top :: rest => .next ((s.setStack rest).setPc top)

/-- 1nnn `JP nnn` (R141). -/
def execJp (nnn : Imm12) (s : State) : Host.Outcome State Fault Refusal :=
  .next (s.setPc (immAddr nnn))

/-- 2nnn `CALL nnn` (R142): the advanced `pc` is pushed; StackOverflow on a full stack (D3, log 19). -/
def execCall (nnn : Imm12) (s : State) : Host.Outcome State Fault Refusal :=
  if s.stackFull then .next (s.raiseIn (.call nnn) .stackOverflow)
  else .next ((s.push s.pc).setPc (immAddr nnn))

/-- 3xkk `SE Vx, kk` (R143). -/
def execSeImm (x : Nibble) (kk : Byte) (s : State) : Host.Outcome State Fault Refusal :=
  .next (s.skipIf (s.getV x == kk))

/-- 4xkk `SNE Vx, kk` (R144). -/
def execSneImm (x : Nibble) (kk : Byte) (s : State) : Host.Outcome State Fault Refusal :=
  .next (s.skipIf (s.getV x != kk))

/-- 5xy0 `SE Vx, Vy` (R145). -/
def execSeReg (x y : Nibble) (s : State) : Host.Outcome State Fault Refusal :=
  .next (s.skipIf (s.getV x == s.getV y))

/-- 9xy0 `SNE Vx, Vy` (R146). -/
def execSneReg (x y : Nibble) (s : State) : Host.Outcome State Fault Refusal :=
  .next (s.skipIf (s.getV x != s.getV y))

/-- Bnnn `JP V0, nnn` (R147): the sum is not masked to 12 bits. -/
def execJpV0 (nnn : Imm12) (s : State) : Host.Outcome State Fault Refusal :=
  .next (s.setPc (immAddr nnn + byteAddr (s.getV 0)))

end Sys2Proof.Machine
end

