-- ==== Sys2Proof/Machine/IndexMemory.lean ====
section
/-! DEFINITION. The index register and memory instructions (spec/43_index_memory.md R180 to R185). Addresses are masked byte
by byte inside the memory operations (spec/20_memory.md R61). -/

namespace Sys2Proof.Machine

/-- The hundreds, tens and ones digits of a byte, each a byte of its own (R183). -/
def bcdBytes (v : Byte) : List Byte :=
  [BitVec.ofNat 8 (v.toNat / 100), BitVec.ofNat 8 (v.toNat / 10 % 10), BitVec.ofNat 8 (v.toNat % 10)]

/-- Annn `LD I, nnn` (R180). -/
def execLdI (nnn : Imm12) (s : State) : Host.Outcome State Fault Refusal :=
  .next (s.setI (immAddr nnn))

/-- Fx1E `ADD I, Vx` (R181): the 16-bit sum masked to 12 bits; no flag. -/
def execAddI (x : Nibble) (s : State) : Host.Outcome State Fault Refusal :=
  .next (s.setI ((s.I + byteAddr (s.getV x)) &&& 0x0FFF))

/-- Fx29 `LD F, Vx` (R182): Vx times 5, Vx not masked. -/
def execLdF (x : Nibble) (s : State) : Host.Outcome State Fault Refusal :=
  .next (s.setI (byteAddr (s.getV x) * BitVec.ofNat 16 Config.glyphBytes))

/-- Fx33 `LD B, Vx` (R183): `I` is not changed. -/
def execLdB (x : Nibble) (s : State) : Host.Outcome State Fault Refusal :=
  .next (s.storeBytes s.I.toNat (bcdBytes (s.getV x)))

/-- Fx55 `LD [I], Vx` (R184): V0 to Vx stored; `I` is not changed (D12, log 15). -/
def execDump (x : Nibble) (s : State) : Host.Outcome State Fault Refusal :=
  .next (s.storeBytes s.I.toNat (s.regBytes (x.toNat + 1)))

/-- Fx65 `LD Vx, [I]` (R185): V0 to Vx loaded; `I` is not changed (D12, log 15). -/
def execLoad (x : Nibble) (s : State) : Host.Outcome State Fault Refusal :=
  .next (s.loadRegs s.I.toNat (x.toNat + 1))

end Sys2Proof.Machine
end

