-- ==== Sys2Proof/Machine/KeysTimers.lean ====
section
/-! DEFINITION. The key and timer instructions (spec/45_keys_timers.md R220 to R225). -/

namespace Sys2Proof.Machine

/-- Ex9E `SKP Vx` (R220): skip if the key is held now. PRESUMED (D32, log 12). -/
def execSkp (x : Nibble) (s : State) : Host.Outcome State Fault Refusal :=
  .next (s.takeKeys.skipIf (keyHeld s.keysNow (keyCode (s.getV x))))

/-- ExA1 `SKNP Vx` (R221): skip if the key is not held now. PRESUMED (D32, log 12). -/
def execSknp (x : Nibble) (s : State) : Host.Outcome State Fault Refusal :=
  .next (s.takeKeys.skipIf (!keyHeld s.keysNow (keyCode (s.getV x))))

/-- Fx07 `LD Vx, DT` (R222). PRESUMED (D31, log 11). -/
def execLdVxDT (x : Nibble) (s : State) : Host.Outcome State Fault Refusal :=
  .next (s.setV x s.DT)

/-- Fx0A `LD Vx, K` (R223): the wait begins; the keys are not read, and Vx is written by the delivery (D15, log 20). -/
def execLdVxK (x : Nibble) (s : State) : Host.Outcome State Fault Refusal :=
  .next (s.beginWait x)

/-- Fx15 `LD DT, Vx` (R224). PRESUMED (D31, log 11). -/
def execLdDTVx (x : Nibble) (s : State) : Host.Outcome State Fault Refusal :=
  .next (s.setDT (s.getV x))

/-- Fx18 `LD ST, Vx` (R225). PRESUMED (D31, log 11). -/
def execLdSTVx (x : Nibble) (s : State) : Host.Outcome State Fault Refusal :=
  .next (s.setST (s.getV x))

end Sys2Proof.Machine
end

