-- ==== Sys2Proof/Machine/Operations.lean ====
section
/-! DEFINITION. The operations that are not instructions: `Reset` (spec/70_reset_and_hazards.md R280), `LoadProgram` (R282),
`TimerTick` and `DeliverKey` (spec/60_exceptions.md R250, R249). None can be masked and none is ever pending (R248). -/

namespace Sys2Proof.Machine

/-- `Reset` (R280), in any state: the one reset state, whatever came before. The parameter STACK_DEPTH and the surroundings
are not the core's state and stay (DESIGN CHOICE, log 25). -/
def State.resetCore (s : State) : State :=
  { State.reset with stackDepth := s.stackDepth, env := s.env }

/-- `LoadProgram(bytes)` (R282): an image that fits is copied verbatim from 0x200 up, and nothing else is written; one that
does not fit is rejected whole (R244; D20, log 18). -/
def State.loadProgram (s : State) (bytes : List Byte) : State :=
  if bytes.length > Config.maxProgram then s.rejectLoad
  else s.storeBytes Config.progBase bytes

/-- A timer counts down by one and stops at 0 (R27, R250). -/
def countDown (t : Byte) : Byte := if t > 0 then t - 1 else t

/-- `TimerTick` (R250): in every state, paused and halted too (D19, log 23). -/
def State.timerTick (s : State) : State := (s.setDT (countDown s.DT)).setST (countDown s.ST)

/-- `DeliverKey(k)` (R249): dropped unless the core waits; else the code goes to V[wait_x] and the wait ends
(D15, D16, log 20). -/
def State.deliverKey (s : State) (k : Nibble) : State :=
  if s.halted then s
  else if s.paused then (s.setV s.waitX (k.setWidth 8)).endWait
  else s

/-! ## The surroundings' order of operations (the model's own, log 1) -/

/-- The operation invoked n operations from now (R251): scripted, else a free value (log 1). The sequence has no end, and
every finite one is some state's script. -/
def State.schedule (s : State) (n : Nat) : Operation :=
  s.env.script.getD n (Config.freeOperation (s.env.opCount + n))

/-- The operation invoked next. -/
def State.nextOp (s : State) : Operation := s.schedule 0

/-- That operation is invoked; the one after it is next. -/
def State.popScript (s : State) : State :=
  s.setEnv { s.env with script := s.env.script.tail, opCount := s.env.opCount + 1 }

end Sys2Proof.Machine
end

