-- ==== Sys2Proof/Machine/Cycle.lean ====
section
/-! DEFINITION. The `Step` operation: gates, fetch, advance, decode, execute (spec/40_step_cycle.md R120 to R124), and the
five operations as one function (spec/00_scope.md R7, spec/60_exceptions.md R251). -/

namespace Sys2Proof.Machine

/-- Decode the word op fetched from address a, and execute it, on the advanced state (R123, R124). A word with no row raises
DecodeError (R241). -/
def decodeExecute (a op : Word) (s : State) : Host.Outcome State Fault Refusal :=
  match decode op with
  | some i => exec i s
  | none => .next (s.raise .decodeError a op)

/-- `Step` (R120): gated, it changes nothing; else the word at `pc` is read before anything is written (R121), `pc` is
advanced (R122), and the word is decoded and executed. -/
def stepInstruction (s : State) : Host.Outcome State Fault Refusal :=
  if s.gated then .next s
  else decodeExecute s.pc (s.wordAt s.pc) s.advance

/-- One operation of the core, atomic (R69, R251). -/
def perform : Operation → State → Host.Outcome State Fault Refusal
  | .reset, s => .next s.resetCore
  | .loadProgram bytes, s => .next (s.loadProgram bytes)
  | .step, s => stepInstruction s
  | .timerTick, s => .next s.timerTick
  | .deliverKey k, s => .next (s.deliverKey k)

/-- Operations one after the other (R251), each on the state the one before it left. -/
def performAll : List Operation → State → Host.Outcome State Fault Refusal
  | [], s => .next s
  | op :: ops, s =>
    match perform op s with
    | .next t => performAll ops t
    | .fault f => .fault f
    | .refused r => .refused r

/-- The word stored at `pc`, big-endian, with the gates open and a `Step` next, so that the next step fetches and runs it
(log 24). -/
def State.placeWord (s : State) (w : Word) : State :=
  { s with
    mem := s.mem.writeBytes s.pc.toNat [highByte w, lowByte w]
    paused := false
    halted := false
    env := { s.env with script := .step :: s.env.script } }

end Sys2Proof.Machine
end

