-- ==== Sys2Proof/Machine/Step.lean ====
section
/-! DEFINITION. One step of the model: one operation of the core, the one the surroundings invoke next (log 1). -/

namespace Sys2Proof.Machine

/-- One operation (R251): the next of the surroundings' order. -/
def step (s : State) : Host.Outcome State Fault Refusal := perform s.nextOp s.popScript

/-- The host's question: s with the instruction word stored where `step` fetches next (log 24). -/
def State.withFetchWord (s : State) (nbits w : Nat) : State := s.placeWord (tableWord nbits w)

end Sys2Proof.Machine
end

