-- ==== Sys2Proof/Machine/Outputs.lean ====
section
/-! DEFINITION. What the surroundings may read between operations, functions of the state (spec/10_state.md R33). -/

namespace Sys2Proof.Machine

/-- `sound_on = (ST > 0)` (R254). -/
def State.soundOn (s : State) : Bool := s.ST > 0

/-- The four outputs of R33, the error latch being four registers (R256). -/
structure Outputs where
  frame : Frame
  soundOn : Bool
  paused : Bool
  halted : Bool
  errCode : BitVec 3
  errPc : Word
  errOp : Word
  deriving DecidableEq, Repr

/-- The outputs of a state (R33, R254 to R256). -/
def State.outputs (s : State) : Outputs where
  frame := s.fb
  soundOn := s.soundOn
  paused := s.paused
  halted := s.halted
  errCode := s.errCode
  errPc := s.errPc
  errOp := s.errOp

end Sys2Proof.Machine
end

