-- ==== Sys2Proof/WellFormed.lean ====
section
/-! DEFINITION. Well-formedness. The operands of an instruction carry their widths in their types, so every term of `Instr`
is well formed (Laws/Decode.lean proves it); the check itself is written out from spec/30_encoding.md R91 and R92, so that a
reader can hold it beside the table. The other two checks are those the spec puts on data from outside: the parameter
STACK_DEPTH (spec/00_scope.md R6) and a program image (spec/70_reset_and_hazards.md R282). -/

namespace Sys2Proof

/-- An operand as it stands in a word: its value and the width of its field (R91). -/
structure OperandField where
  value : Nat
  width : Nat
  deriving DecidableEq, Repr

/-- The value fits in the field. -/
def OperandField.fits (f : OperandField) : Bool := f.value < 2 ^ f.width

/-- A register field or the immediate n: 4 bits. -/
def nibbleField (x : Nibble) : OperandField := ⟨x.toNat, 4⟩

/-- The immediate kk: 8 bits. -/
def kkField (kk : Byte) : OperandField := ⟨kk.toNat, 8⟩

/-- The immediate nnn: 12 bits. -/
def nnnField (nnn : Imm12) : OperandField := ⟨nnn.toNat, 12⟩

/-- The operand fields of an instruction, by its format (R92). -/
def Instr.operands : Instr → List OperandField
  | .cls => []
  | .ret => []
  | .jp nnn => [nnnField nnn]
  | .call nnn => [nnnField nnn]
  | .seImm x kk => [nibbleField x, kkField kk]
  | .sneImm x kk => [nibbleField x, kkField kk]
  | .seReg x y => [nibbleField x, nibbleField y]
  | .ldImm x kk => [nibbleField x, kkField kk]
  | .addImm x kk => [nibbleField x, kkField kk]
  | .ldReg x y => [nibbleField x, nibbleField y]
  | .orReg x y => [nibbleField x, nibbleField y]
  | .andReg x y => [nibbleField x, nibbleField y]
  | .xorReg x y => [nibbleField x, nibbleField y]
  | .addReg x y => [nibbleField x, nibbleField y]
  | .subReg x y => [nibbleField x, nibbleField y]
  | .shr x y => [nibbleField x, nibbleField y]
  | .subnReg x y => [nibbleField x, nibbleField y]
  | .shl x y => [nibbleField x, nibbleField y]
  | .sneReg x y => [nibbleField x, nibbleField y]
  | .ldI nnn => [nnnField nnn]
  | .jpV0 nnn => [nnnField nnn]
  | .rnd x kk => [nibbleField x, kkField kk]
  | .drw x y n => [nibbleField x, nibbleField y, nibbleField n]
  | .skp x => [nibbleField x]
  | .sknp x => [nibbleField x]
  | .ldVxDT x => [nibbleField x]
  | .ldVxK x => [nibbleField x]
  | .ldDTVx x => [nibbleField x]
  | .ldSTVx x => [nibbleField x]
  | .addI x => [nibbleField x]
  | .ldF x => [nibbleField x]
  | .ldB x => [nibbleField x]
  | .dump x => [nibbleField x]
  | .load x => [nibbleField x]

/-- Every operand fits its field. -/
def Instr.wellFormed (i : Instr) : Bool := i.operands.all OperandField.fits

/-- STACK_DEPTH is "a natural number at least 1" (R6). -/
def stackDepthOk (d : Nat) : Bool := 1 ≤ d

/-- The image fits in memory from 0x200 up: at most 3584 bytes (R282). -/
def imageFits (bytes : List Byte) : Bool := bytes.length ≤ Config.maxProgram

end Sys2Proof
end

