-- ==== Sys2Proof/Safety.lean ====
section
/-! DEFINITION. What counts as a safe run, in the terms claims use: the invariants of spec/10_state.md R35, the boot sequence
and the launch premises (spec/70_reset_and_hazards.md R283, R284), and the ways a run stops being interesting (R285). -/

namespace Sys2Proof.Machine

/-! ## Invariants (R35) -/

/-- While no error is latched, the three error registers are 0; while one is, the code is 1 to 4 (R35). -/
def State.latchConsistent (s : State) : Bool :=
  if s.halted then 1 ≤ s.errCode.toNat && s.errCode.toNat ≤ 4
  else s.errCode == 0 && s.errPc == 0 && s.errOp == 0

/-- The invariants of R35 that every operation keeps, and the canonical form of memory. The widths of the registers, the
4096 cells and the 2048 pixels hold by the types. -/
structure State.Inv (s : State) : Prop where
  /-- `I < 4096` (R23). -/
  index : s.I.toNat < Config.memSize
  /-- `sp <= STACK_DEPTH` (R26). -/
  stack : s.sp ≤ s.stackDepth
  /-- STACK_DEPTH is at least 1 (R6). -/
  depth : stackDepthOk s.stackDepth = true
  /-- The latch and its companions agree. -/
  latch : s.latchConsistent = true
  /-- Memory is in its canonical form. -/
  memory : s.mem.wf = true

/-- Not both paused and halted: R35 says it of every session that follows R283. -/
def State.notPausedAndHalted (s : State) : Bool := !(s.paused && s.halted)

/-! ## Sessions (R283) -/

/-- The boot sequence: `Reset`, then `LoadProgram(bytes)` once (R283). -/
def State.boot (s : State) (bytes : List Byte) : State := s.resetCore.loadProgram bytes

/-- The operations of a session after the boot (R283): `Step`, `TimerTick`, `DeliverKey`. -/
def Operation.inSession : Operation → Bool
  | .reset => false
  | .loadProgram _ => false
  | .step => true
  | .timerTick => true
  | .deliverKey _ => true

/-- The launch premises of R284: the state at the first `Step` of a session with an accepted image. -/
structure Launched (bytes : List Byte) (s : State) : Prop where
  notHalted : s.halted = false
  notPaused : s.paused = false
  stackEmpty : s.stack = []
  registers : ∀ x, s.getV x = 0
  index : s.I = 0
  delayTimer : s.DT = 0
  soundTimer : s.ST = 0
  entry : s.pc = 0x200
  frameClear : ∀ row col, s.fb.pixel row col = false
  image : ∀ k (h : k < bytes.length), s.memRead (0x200 + k) = bytes[k]
  font : ∀ k (h : k < FONT.length), s.memRead k = FONT[k]
  rest : ∀ a, 80 ≤ a → a < 4096 → (a < 0x200 ∨ 0x200 + bytes.length ≤ a) → s.memRead a = 0

/-! ## The end of a run (R285) -/

/-- A fault state, never a good final state (R246, R285). -/
def State.faulted (s : State) : Bool := s.halted

/-- Waiting for a key: a hang if none is delivered, not an end (R285, U20). -/
def State.waiting (s : State) : Bool := s.paused && !s.halted

/-- The idle loop: the word at `pc` is a jump to `pc` itself (R285, D28). -/
def State.idle (s : State) : Bool :=
  !s.gated && decide (decode (s.wordAt s.pc) = some (.jp (s.pc.setWidth 12))) && s.pc.toNat < Config.memSize

/-- A safe state: no error latched. -/
def State.safe (s : State) : Bool := !s.faulted

end Sys2Proof.Machine
end

