-- ==== Sys2Proof/Certificates/Slice0/Obligations.lean ====
section
/-! DEFINITION. The statements for the provers, taken from the numbered rules of spec/. `exec i s` is the execute phase of
instruction i: `s.pc` is already the instruction's address plus 2 (spec/40_step_cycle.md R122). -/

open Sys2Proof Sys2Proof.Machine

namespace Sys2Proof.Claims

/-! ## Words the statements share -/

/-- Every word with `w & mask = pattern` decodes to `build w`: one row of spec/30_encoding.md R95. -/
def HasRow (mask pattern : Word) (build : Word → Instr) : Prop :=
  ∀ w : Word, w &&& mask = pattern → decode w = some (build w)

/-- t is s but for register x, which holds b. -/
def WritesReg (s t : State) (x : Nibble) (b : Byte) : Prop :=
  t.getV x = b ∧ (∀ y, y ≠ x → t.getV y = s.getV y) ∧ { t with V := s.V } = s

/-- t is s but for register x, which holds b, and VF, which holds the flag f; x is not VF. -/
def WritesRegAndFlag (s t : State) (x : Nibble) (b f : Nat) : Prop :=
  (t.getV x).toNat = b ∧ (t.getV 0xF).toNat = f ∧ (∀ y, y ≠ x → y ≠ 0xF → t.getV y = s.getV y) ∧ { t with V := s.V } = s

/-- t is s but for memory, where the bytes bs stand at base and up, each address masked to 12 bits, and every address outside
them reads as before. -/
def StoresBytes (s t : State) (base : Nat) (bs : List Byte) : Prop :=
  (∀ k (h : k < bs.length), t.memRead (base + k) = bs[k]) ∧
  (∀ a, (∀ k, k < bs.length → a % 4096 ≠ (base + k) % 4096) → t.memRead a = s.memRead a) ∧
  { t with mem := s.mem } = s

/-- The latch after error number code, raised at address a by the word op: `pc` and everything else as in s. -/
def latched (s : State) (code : BitVec 3) (a op : Word) : State :=
  { s with halted := true, errCode := code, errPc := a, errOp := op }

/-- The instructions that read the keys or draw a byte: the only ones that move the model's `env`. -/
def samples : Instr → Bool
  | .skp _ => true
  | .sknp _ => true
  | .rnd _ _ => true
  | _ => false

/-- The flag-producing instructions of spec/10_state.md R22. -/
def producesFlag : Instr → Bool
  | .addReg _ _ => true
  | .subReg _ _ => true
  | .shr _ _ => true
  | .subnReg _ _ => true
  | .shl _ _ => true
  | .drw _ _ _ => true
  | _ => false

/-- Register y is a destination the instruction names: Vx, or V0 to Vx for Fx65. -/
def isDestination (y : Nibble) : Instr → Bool
  | .ldImm x _ => x == y
  | .addImm x _ => x == y
  | .ldReg x _ => x == y
  | .orReg x _ => x == y
  | .andReg x _ => x == y
  | .xorReg x _ => x == y
  | .addReg x _ => x == y
  | .subReg x _ => x == y
  | .shr x _ => x == y
  | .subnReg x _ => x == y
  | .shl x _ => x == y
  | .rnd x _ => x == y
  | .ldVxDT x => x == y
  | .load x => y.toNat ≤ x.toNat
  | _ => false

/-- The words of spec/30_encoding.md R96, by hexadecimal digits. -/
def IllegalWord (w : Word) : Prop :=
  let family := w.toNat / 4096
  let low := w.toNat % 16
  let lowByte := w.toNat % 256
  (family = 0 ∧ w ≠ 0x00E0 ∧ w ≠ 0x00EE) ∨
  (family = 5 ∧ low ≠ 0) ∨
  (family = 8 ∧ low ∈ [0x8, 0x9, 0xA, 0xB, 0xC, 0xD, 0xF]) ∨
  (family = 9 ∧ low ≠ 0) ∨
  (family = 0xE ∧ lowByte ∉ [0x9E, 0xA1]) ∨
  (family = 0xF ∧ lowByte ∉ [0x07, 0x0A, 0x15, 0x18, 0x1E, 0x29, 0x33, 0x55, 0x65])

/-- Some set bit of the sprite lies over a pixel that is set in s (R202). -/
def Collides (s : State) (x y n : Nibble) : Prop :=
  ∃ r c, r < n.toNat ∧ c < 8 ∧ (s.memRead (s.I.toNat + r)).getLsbD (7 - c) = true ∧
    Frame.pixel s.fb ((s.getV y).toNat + r) ((s.getV x).toNat + c) = true

end Sys2Proof.Claims

open Sys2Proof.Claims

/-! ## Fetch, decode, step -/

/-- R121 to R124: an ungated step whose word decodes to i is the execute phase of i on the state with `pc` advanced by 2. The
model adds only the surroundings' order of operations, in which the one invoked is used up (log 1). -/
def Obligations.StepRunsDecodedInstruction : Prop :=
  ∀ (s : State) (i : Instr), s.nextOp = .step → s.halted = false → s.paused = false →
    decode (wordOf (s.memRead s.pc.toNat) (s.memRead (s.pc.toNat + 1))) = some i →
    step s = exec i { s with
      pc := s.pc + 2, env := { s.env with script := s.env.script.tail, opCount := s.env.opCount + 1 } }

/-- R64, R61: the word at a is 256 times the byte at a plus the byte at a + 1, each address masked to 12 bits on its own. -/
def Obligations.FetchIsBigEndianAndMasked : Prop :=
  ∀ (s : State) (a : Word),
    (s.wordAt a).toNat = 256 * (s.memRead (a.toNat % 4096)).toNat + (s.memRead ((a.toNat + 1) % 4096)).toNat

/-- Every instruction is the decoding of its own encoding, at every value of every operand. -/
def Obligations.DecodeOfEncodeIsIdentity : Prop :=
  ∀ i : Instr, decode (encode i) = some i

/-- Each word has one meaning: a word that decodes to i is the encoding of i. -/
def Obligations.EncodeOfDecodeIsIdentity : Prop :=
  ∀ (w : Word) (i : Instr), decode w = some i → encode i = w

/-- R94, R95: every word of each of the 34 rows, written out here from the spec's table, decodes to that row's instruction with
the row's fields (R91); and eight words written out digit by digit. Which row of 8xyE, of Fx07, Fx15, Fx18 and of Ex9E, ExA1
stands for which instruction is the spec's decisions D10, D31, D32 (log 10, 11, 12), the exact match its D8 (log 16). -/
def Obligations.WordsOfTheMapDecode : Prop :=
  HasRow 0xFFFF 0x00E0 (fun _ => .cls) ∧
  HasRow 0xFFFF 0x00EE (fun _ => .ret) ∧
  HasRow 0xF000 0x1000 (fun w => .jp (w.extractLsb' 0 12)) ∧
  HasRow 0xF000 0x2000 (fun w => .call (w.extractLsb' 0 12)) ∧
  HasRow 0xF000 0x3000 (fun w => .seImm (w.extractLsb' 8 4) (w.extractLsb' 0 8)) ∧
  HasRow 0xF000 0x4000 (fun w => .sneImm (w.extractLsb' 8 4) (w.extractLsb' 0 8)) ∧
  HasRow 0xF00F 0x5000 (fun w => .seReg (w.extractLsb' 8 4) (w.extractLsb' 4 4)) ∧
  HasRow 0xF000 0x6000 (fun w => .ldImm (w.extractLsb' 8 4) (w.extractLsb' 0 8)) ∧
  HasRow 0xF000 0x7000 (fun w => .addImm (w.extractLsb' 8 4) (w.extractLsb' 0 8)) ∧
  HasRow 0xF00F 0x8000 (fun w => .ldReg (w.extractLsb' 8 4) (w.extractLsb' 4 4)) ∧
  HasRow 0xF00F 0x8001 (fun w => .orReg (w.extractLsb' 8 4) (w.extractLsb' 4 4)) ∧
  HasRow 0xF00F 0x8002 (fun w => .andReg (w.extractLsb' 8 4) (w.extractLsb' 4 4)) ∧
  HasRow 0xF00F 0x8003 (fun w => .xorReg (w.extractLsb' 8 4) (w.extractLsb' 4 4)) ∧
  HasRow 0xF00F 0x8004 (fun w => .addReg (w.extractLsb' 8 4) (w.extractLsb' 4 4)) ∧
  HasRow 0xF00F 0x8005 (fun w => .subReg (w.extractLsb' 8 4) (w.extractLsb' 4 4)) ∧
  HasRow 0xF00F 0x8006 (fun w => .shr (w.extractLsb' 8 4) (w.extractLsb' 4 4)) ∧
  HasRow 0xF00F 0x8007 (fun w => .subnReg (w.extractLsb' 8 4) (w.extractLsb' 4 4)) ∧
  HasRow 0xF00F 0x800E (fun w => .shl (w.extractLsb' 8 4) (w.extractLsb' 4 4)) ∧
  HasRow 0xF00F 0x9000 (fun w => .sneReg (w.extractLsb' 8 4) (w.extractLsb' 4 4)) ∧
  HasRow 0xF000 0xA000 (fun w => .ldI (w.extractLsb' 0 12)) ∧
  HasRow 0xF000 0xB000 (fun w => .jpV0 (w.extractLsb' 0 12)) ∧
  HasRow 0xF000 0xC000 (fun w => .rnd (w.extractLsb' 8 4) (w.extractLsb' 0 8)) ∧
  HasRow 0xF000 0xD000 (fun w => .drw (w.extractLsb' 8 4) (w.extractLsb' 4 4) (w.extractLsb' 0 4)) ∧
  HasRow 0xF0FF 0xE09E (fun w => .skp (w.extractLsb' 8 4)) ∧
  HasRow 0xF0FF 0xE0A1 (fun w => .sknp (w.extractLsb' 8 4)) ∧
  HasRow 0xF0FF 0xF007 (fun w => .ldVxDT (w.extractLsb' 8 4)) ∧
  HasRow 0xF0FF 0xF00A (fun w => .ldVxK (w.extractLsb' 8 4)) ∧
  HasRow 0xF0FF 0xF015 (fun w => .ldDTVx (w.extractLsb' 8 4)) ∧
  HasRow 0xF0FF 0xF018 (fun w => .ldSTVx (w.extractLsb' 8 4)) ∧
  HasRow 0xF0FF 0xF01E (fun w => .addI (w.extractLsb' 8 4)) ∧
  HasRow 0xF0FF 0xF029 (fun w => .ldF (w.extractLsb' 8 4)) ∧
  HasRow 0xF0FF 0xF033 (fun w => .ldB (w.extractLsb' 8 4)) ∧
  HasRow 0xF0FF 0xF055 (fun w => .dump (w.extractLsb' 8 4)) ∧
  HasRow 0xF0FF 0xF065 (fun w => .load (w.extractLsb' 8 4)) ∧
  decode 0x00E0 = some .cls ∧ decode 0x00EE = some .ret ∧ decode 0x2ABC = some (.call 0xABC) ∧
  decode 0x6A7F = some (.ldImm 0xA 0x7F) ∧ decode 0x8125 = some (.subReg 0x1 0x2) ∧
  decode 0xD123 = some (.drw 0x1 0x2 0x3) ∧ decode 0xE59E = some (.skp 0x5) ∧ decode 0xF255 = some (.dump 0x2)

/-- R96 (D8): the words that are no instruction are exactly those of R96's table. -/
def Obligations.IllegalWordsAreThoseOfTheTable : Prop :=
  ∀ w : Word, decode w = none ↔ IllegalWord w

/-- R241, R245 (D17): an ungated step whose word is illegal latches DecodeError with the fetch address and the word, leaves
`pc` advanced by 2, and changes nothing else. -/
def Obligations.IllegalWordLatchesDecodeError : Prop :=
  ∀ s : State, s.gated = false → IllegalWord (s.wordAt s.pc) →
    perform .step s = .next (latched { s with pc := s.pc + 2 } 1 s.pc (s.wordAt s.pc))

/-- R120 (D17): any number of Steps of a paused or halted core changes nothing at all. -/
def Obligations.GatedStepsChangeNothing : Prop :=
  ∀ (s : State) (k : Nat), s.paused = true ∨ s.halted = true →
    performAll (List.replicate k .step) s = .next s

/-- R127: only an illegal word, a return on an empty stack and a call on a full one latch an error in a Step, and such a step
changes exactly `pc`, `halted` and the three error registers (the record: D17). -/
def Obligations.OnlyThreeErrorsInAStep : Prop :=
  ∀ s t : State, s.halted = false → perform .step s = .next t → t.halted = true →
    ∃ code, t = latched { s with pc := s.pc + 2 } code s.pc (s.wordAt s.pc) ∧
      ((code = 1 ∧ decode (s.wordAt s.pc) = none) ∨
       (code = 2 ∧ decode (s.wordAt s.pc) = some .ret ∧ s.stack = []) ∨
       (code = 3 ∧ (∃ nnn, decode (s.wordAt s.pc) = some (.call nnn)) ∧ s.sp = s.stackDepth))

/-- No step of the model ever ends in a fault or a refusal: every state has a next one (R61, R127, R148). -/
def Obligations.EveryStepAnswersANextState : Prop :=
  ∀ s : State, ∃ t, step s = .next t

/-! ## Invariants -/

/-- R35 at reset. -/
def Obligations.InvariantsHoldAtReset : Prop := State.reset.Inv

/-- R35: every step, whatever operation the surroundings invoke, keeps the invariants: I below 4096, the stack within its depth, the
latch consistent, and memory in its canonical form. -/
def Obligations.EveryStepKeepsTheInvariants : Prop :=
  ∀ s t : State, s.Inv → step s = .next t → t.Inv

/-- R35: in every session that follows R283 the core is never both paused and halted. -/
def Obligations.SessionIsNeverPausedAndHalted : Prop :=
  ∀ (s : State) (bytes : List Byte) (ops : List Operation), (∀ op ∈ ops, op.inSession = true) →
    ∃ t, performAll ops (s.boot bytes) = .next t ∧ ¬ (t.paused = true ∧ t.halted = true)

/-- R35: every operation of a session keeps the core from being both paused and halted, from every state, and the boot
sequence starts there. -/
def Obligations.SessionOperationsKeepNotPausedAndHalted : Prop :=
  (∀ (s t : State) (op : Operation), op.inSession = true → s.notPausedAndHalted = true → perform op s = .next t →
    t.notPausedAndHalted = true) ∧
  (∀ (s : State) (bytes : List Byte), (s.boot bytes).notPausedAndHalted = true)

/-- R246 (D17): once halted, every operation but Reset leaves the latch and its three companions as they are. -/
def Obligations.OnlyResetClearsTheLatch : Prop :=
  ∀ (s : State) (op : Operation), s.halted = true → op ≠ .reset →
    ∃ t, perform op s = .next t ∧ t.halted = true ∧ t.errCode = s.errCode ∧ t.errPc = s.errPc ∧ t.errOp = s.errOp

/-! ## Reset, load, boot, timers, keys -/

/-- R34, R280: Reset in any state leaves every piece of state at its reset value. That STACK_DEPTH and the surroundings stay is
the model's choice (log 25), the values of the last four the spec's decision D29, the font bytes its decision D27. -/
def Obligations.ResetLeavesTheResetValues : Prop :=
  ∀ s : State, ∃ t, perform .reset s = .next t ∧
    (∀ a, a < 4096 → t.memRead a = FONT.getD a 0) ∧ (∀ x, t.getV x = 0) ∧ t.I = 0 ∧ t.pc = 0x200 ∧
    t.stack = [] ∧ t.DT = 0 ∧ t.ST = 0 ∧ (∀ row col, Frame.pixel t.fb row col = false) ∧
    t.paused = false ∧ t.waitX = 0 ∧ t.halted = false ∧ t.errCode = 0 ∧ t.errPc = 0 ∧ t.errOp = 0 ∧
    t.stackDepth = s.stackDepth ∧ t.env = s.env

/-- R282: an image of at most 3584 bytes is copied verbatim from 0x200 up, and nothing else changes. -/
def Obligations.FittingImageIsCopied : Prop :=
  ∀ (s : State) (bytes : List Byte), s.mem.wf = true → bytes.length ≤ 3584 →
    ∃ t, perform (.loadProgram bytes) s = .next t ∧ StoresBytes s t 0x200 bytes

/-- R244, R282 (D20): a longer image is rejected whole: `halted` and code 4, and not even those if an error is latched. -/
def Obligations.OversizeImageIsRejected : Prop :=
  ∀ (s : State) (bytes : List Byte), 3584 < bytes.length →
    perform (.loadProgram bytes) s =
      .next (if s.halted then s else { s with halted := true, errCode := 4 })

/-- R283, R284: after the boot sequence with an accepted image the launch premises hold, whatever came before. -/
def Obligations.BootGivesTheLaunchPremises : Prop :=
  ∀ (s : State) (bytes : List Byte), bytes.length ≤ 3584 →
    performAll [.reset, .loadProgram bytes] s = .next (s.boot bytes) ∧ Launched bytes (s.boot bytes)

/-- R250: after k ticks each timer is k lower, or 0, and nothing else has changed, in every state (paused and halted: D19). -/
def Obligations.TicksCountTheTimersDownToZero : Prop :=
  ∀ (s : State) (k : Nat), ∃ t, performAll (List.replicate k .timerTick) s = .next t ∧
    t.DT.toNat = s.DT.toNat - k ∧ t.ST.toNat = s.ST.toNat - k ∧ { t with DT := s.DT, ST := s.ST } = s

/-- R249 (D15, D16): a key delivered to a waiting core lands in V[wait_x] and ends the wait; otherwise it is dropped. -/
def Obligations.KeyDeliveryEndsOnlyAWait : Prop :=
  (∀ (s : State) (k : Nibble), s.halted = false → s.paused = true →
    ∃ t, perform (.deliverKey k) s = .next t ∧ WritesReg { s with paused := false } t s.waitX (k.setWidth 8)) ∧
  (∀ (s : State) (k : Nibble), s.halted = true ∨ s.paused = false → perform (.deliverKey k) s = .next s)

/-! ## Control transfer -/

/-- R141. -/
def Obligations.JumpSetsPc : Prop :=
  HasRow 0xF000 0x1000 (fun w => .jp (w.extractLsb' 0 12)) ∧
  ∀ (nnn : Imm12) (s : State), exec (.jp nnn) s = .next { s with pc := nnn.setWidth 16 }

/-- R140: RET pops the last pushed address into `pc`, all 16 bits, and changes nothing else; on an empty stack it latches
StackUnderflow with its own address and word and changes nothing else (the latch: D17). -/
def Obligations.ReturnPopsOrUnderflows : Prop :=
  (∀ (s : State) (top : Word) (rest : List Word), s.stack = top :: rest →
    exec .ret s = .next { s with stack := rest, pc := top }) ∧
  (∀ s : State, s.stack = [] → exec .ret s = .next (latched s 2 (s.pc - 2) 0x00EE))

/-- R142: CALL pushes the advanced `pc` and goes to nnn, and changes nothing else; on a full stack it latches StackOverflow
with its own address and word and changes nothing else (D3, D17). -/
def Obligations.CallPushesOrOverflows : Prop :=
  (∀ (nnn : Imm12) (s : State), s.sp ≠ s.stackDepth →
    exec (.call nnn) s = .next { s with stack := s.pc :: s.stack, pc := nnn.setWidth 16 }) ∧
  (∀ (nnn : Imm12) (s : State), s.sp = s.stackDepth →
    exec (.call nnn) s = .next (latched s 3 (s.pc - 2) (0x2000#16 ||| nnn.setWidth 16)))

/-- R143, R144. -/
def Obligations.ImmediateSkips : Prop :=
  HasRow 0xF000 0x3000 (fun w => .seImm (w.extractLsb' 8 4) (w.extractLsb' 0 8)) ∧
  HasRow 0xF000 0x4000 (fun w => .sneImm (w.extractLsb' 8 4) (w.extractLsb' 0 8)) ∧
  ∀ (x : Nibble) (kk : Byte) (s : State),
    exec (.seImm x kk) s = .next { s with pc := if s.getV x = kk then s.pc + 2 else s.pc } ∧
    exec (.sneImm x kk) s = .next { s with pc := if s.getV x ≠ kk then s.pc + 2 else s.pc }

/-- R145, R146. -/
def Obligations.RegisterSkips : Prop :=
  HasRow 0xF00F 0x5000 (fun w => .seReg (w.extractLsb' 8 4) (w.extractLsb' 4 4)) ∧
  HasRow 0xF00F 0x9000 (fun w => .sneReg (w.extractLsb' 8 4) (w.extractLsb' 4 4)) ∧
  ∀ (x y : Nibble) (s : State),
    exec (.seReg x y) s = .next { s with pc := if s.getV x = s.getV y then s.pc + 2 else s.pc } ∧
    exec (.sneReg x y) s = .next { s with pc := if s.getV x ≠ s.getV y then s.pc + 2 else s.pc }

/-- R147: the sum is exact; that it is not masked to 12 bits is the spec's decision D4 (log 17). -/
def Obligations.JumpWithOffsetAddsV0 : Prop :=
  HasRow 0xF000 0xB000 (fun w => .jpV0 (w.extractLsb' 0 12)) ∧
  ∀ (nnn : Imm12) (s : State), ∃ t, exec (.jpV0 nnn) s = .next t ∧
    t.pc.toNat = nnn.toNat + (s.getV 0).toNat ∧ t.pc.toNat ≤ 0x10FE ∧ { t with pc := s.pc } = s

/-- R25, with R220 and R221 for the key skips: how each instruction leaves `pc`; every instruction not named leaves the advanced
value. No mask: D4 (log 17). The call on a full stack: D3 (log 19). The key skips: their sense D32 (log 12), the low nibble of
Vx as key code D13 (log 13), the sampled levels the model's `keysNow` (log 3). -/
def Obligations.PcAfterEachInstruction : Prop :=
  ∀ (i : Instr) (s t : State), exec i s = .next t →
    t.pc = match i with
      | .jp nnn => nnn.setWidth 16
      | .call nnn => if s.sp = s.stackDepth then s.pc else nnn.setWidth 16
      | .ret => s.stack.headD s.pc
      | .jpV0 nnn => nnn.setWidth 16 + (s.getV 0).setWidth 16
      | .seImm x kk => if s.getV x = kk then s.pc + 2 else s.pc
      | .sneImm x kk => if s.getV x = kk then s.pc else s.pc + 2
      | .seReg x y => if s.getV x = s.getV y then s.pc + 2 else s.pc
      | .sneReg x y => if s.getV x = s.getV y then s.pc else s.pc + 2
      | .skp x => if s.keysNow.getLsbD ((s.getV x).toNat % 16) then s.pc + 2 else s.pc
      | .sknp x => if s.keysNow.getLsbD ((s.getV x).toNat % 16) then s.pc else s.pc + 2
      | _ => s.pc

/-! ## Load, add, ALU, random -/

/-- R160, R161. -/
def Obligations.ImmediateLoadAndAdd : Prop :=
  HasRow 0xF000 0x6000 (fun w => .ldImm (w.extractLsb' 8 4) (w.extractLsb' 0 8)) ∧
  HasRow 0xF000 0x7000 (fun w => .addImm (w.extractLsb' 8 4) (w.extractLsb' 0 8)) ∧
  ∀ (x : Nibble) (kk : Byte) (s : State),
    (∃ t, exec (.ldImm x kk) s = .next t ∧ WritesReg s t x kk) ∧
    (∃ t, exec (.addImm x kk) s = .next t ∧ (t.getV x).toNat = ((s.getV x).toNat + kk.toNat) % 256 ∧
      (∀ y, y ≠ x → t.getV y = s.getV y) ∧ { t with V := s.V } = s)

/-- R162 to R165: the move and the bitwise operations write Vx alone; that VF is not written is the spec's decision D9. -/
def Obligations.MovesAndLogicWriteOnlyVx : Prop :=
  ∀ (x y : Nibble) (s : State),
    (∃ t, exec (.ldReg x y) s = .next t ∧ WritesReg s t x (s.getV y)) ∧
    (∃ t, exec (.orReg x y) s = .next t ∧ WritesReg s t x (s.getV x ||| s.getV y)) ∧
    (∃ t, exec (.andReg x y) s = .next t ∧ WritesReg s t x (s.getV x &&& s.getV y)) ∧
    (∃ t, exec (.xorReg x y) s = .next t ∧ WritesReg s t x (s.getV x ^^^ s.getV y))

/-- R172: results and flags of the flag-producing ALU instructions, x other than F, from the operands before the instruction
(y = F too: D11). The row of 8xyE is the spec's decision D10. -/
def Obligations.AluResultsAndFlags : Prop :=
  ∀ (x y : Nibble) (s : State), x ≠ 0xF →
    let a := (s.getV x).toNat
    let b := (s.getV y).toNat
    (∃ t, exec (.addReg x y) s = .next t ∧ WritesRegAndFlag s t x ((a + b) % 256) (if a + b > 255 then 1 else 0)) ∧
    (∃ t, exec (.subReg x y) s = .next t ∧
      WritesRegAndFlag s t x (if a ≥ b then a - b else a + 256 - b) (if a > b then 1 else 0)) ∧
    (∃ t, exec (.shr x y) s = .next t ∧ WritesRegAndFlag s t x (a / 2) (a % 2)) ∧
    (∃ t, exec (.subnReg x y) s = .next t ∧
      WritesRegAndFlag s t x (if b ≥ a then b - a else b + 256 - a) (if b > a then 1 else 0)) ∧
    (∃ t, exec (.shl x y) s = .next t ∧ WritesRegAndFlag s t x (2 * a % 256) (a / 128))

/-- R173 (D11): with x = F the result replaces the flag, so VF holds the result and no other register changes. -/
def Obligations.AluResultReplacesTheFlagInVF : Prop :=
  ∀ (y : Nibble) (s : State),
    (∃ t, exec (.addReg 0xF y) s = .next t ∧ WritesReg s t 0xF (s.getV 0xF + s.getV y)) ∧
    (∃ t, exec (.subReg 0xF y) s = .next t ∧ WritesReg s t 0xF (s.getV 0xF - s.getV y)) ∧
    (∃ t, exec (.shr 0xF y) s = .next t ∧ WritesReg s t 0xF (s.getV 0xF >>> 1)) ∧
    (∃ t, exec (.subnReg 0xF y) s = .next t ∧ WritesReg s t 0xF (s.getV y - s.getV 0xF)) ∧
    (∃ t, exec (.shl 0xF y) s = .next t ∧ WritesReg s t 0xF (s.getV 0xF <<< 1))

/-- R171 (D14): Vx receives the byte drawn, masked by kk, and only the surroundings' record of the draw moves besides; every
byte can be the one drawn. -/
def Obligations.RandomIsADrawMasked : Prop :=
  (∀ (x : Nibble) (kk : Byte) (s : State), ∃ t, exec (.rnd x kk) s = .next t ∧
    t.getV x = s.drawNow &&& kk ∧ t.getV x &&& ~~~kk = 0 ∧ (∀ y, y ≠ x → t.getV y = s.getV y) ∧
    t.env = { s.env with draws := s.env.draws.tail, drawCount := s.env.drawCount + 1 } ∧
    { t with V := s.V, env := s.env } = s) ∧
  (∀ (x : Nibble) (kk r : Byte) (s : State), ∃ e t, exec (.rnd x kk) { s with env := e } = .next t ∧ t.getV x = r &&& kk)

/-- R22 (D9): VF changes only by a flag-producing instruction or as a named destination, and a flag write is 0 or 1. -/
def Obligations.FlagIsWrittenOnlyAsNamed : Prop :=
  ∀ (i : Instr) (s t : State), exec i s = .next t → isDestination 0xF i = false →
    (producesFlag i = true → t.getV 0xF = 0 ∨ t.getV 0xF = 1) ∧
    (producesFlag i = false → t.getV 0xF = s.getV 0xF)

/-! ## Index and memory -/

/-- R180, R181, R182. -/
def Obligations.IndexLoads : Prop :=
  HasRow 0xF000 0xA000 (fun w => .ldI (w.extractLsb' 0 12)) ∧
  HasRow 0xF0FF 0xF01E (fun w => .addI (w.extractLsb' 8 4)) ∧
  HasRow 0xF0FF 0xF029 (fun w => .ldF (w.extractLsb' 8 4)) ∧
  (∀ (nnn : Imm12) (s : State), exec (.ldI nnn) s = .next { s with I := nnn.setWidth 16 }) ∧
  (∀ (x : Nibble) (s : State), ∃ t, exec (.addI x) s = .next t ∧
    t.I.toNat = (s.I.toNat + (s.getV x).toNat) % 4096 ∧ { t with I := s.I } = s) ∧
  (∀ (x : Nibble) (s : State), ∃ t, exec (.ldF x) s = .next t ∧
    t.I.toNat = (s.getV x).toNat * 5 ∧ { t with I := s.I } = s)

/-- R183: the digits of Vx are stored at I, I + 1, I + 2, hundreds first; that each address is taken modulo 4096 on its own is
the spec's decision D5 (log 22). -/
def Obligations.BcdStoresTheThreeDigits : Prop :=
  HasRow 0xF0FF 0xF033 (fun w => .ldB (w.extractLsb' 8 4)) ∧
  ∀ (x : Nibble) (s : State), s.mem.wf = true → ∃ t h d o, exec (.ldB x) s = .next t ∧
    StoresBytes s t s.I.toNat [h, d, o] ∧
    h.toNat = (s.getV x).toNat / 100 ∧ d.toNat = (s.getV x).toNat / 10 % 10 ∧ o.toNat = (s.getV x).toNat % 10 ∧
    100 * h.toNat + 10 * d.toNat + o.toNat = (s.getV x).toNat

/-- R184: V0 to Vx are stored at I and up; that I is unchanged is the spec's decision D12. -/
def Obligations.DumpStoresTheRegisters : Prop :=
  ∀ (x : Nibble) (s : State), s.mem.wf = true → ∃ t, exec (.dump x) s = .next t ∧
    StoresBytes s t s.I.toNat ((List.range (x.toNat + 1)).map fun k => s.getV (BitVec.ofNat 4 k))

/-- R185: V0 to Vx are loaded from I and up, the other registers are unchanged; that I is unchanged is D12. -/
def Obligations.LoadReadsTheRegisters : Prop :=
  ∀ (x : Nibble) (s : State), ∃ t, exec (.load x) s = .next t ∧
    (∀ y, t.getV y = if y.toNat ≤ x.toNat then s.memRead (s.I.toNat + y.toNat) else s.getV y) ∧ { t with V := s.V } = s

/-- A dump and a load with the same x and the same I restore V0 to Vx, whatever the registers held in between. -/
def Obligations.DumpThenLoadRestoresTheRegisters : Prop :=
  ∀ (x : Nibble) (s t u : State) (v : Vector Byte 16), s.mem.wf = true → exec (.dump x) s = .next t →
    exec (.load x) { t with V := v } = .next u → ∀ y : Nibble, y.toNat ≤ x.toNat → u.getV y = s.getV y

/-- R71 (D24), R64: two bytes stored by a dump are the word V0, V1 that a later fetch at I sees. I is the index after the dump,
which Fx55 leaves as it was (D12, log 15); the addresses: D5 (log 22). -/
def Obligations.StoreIsSeenByTheFetch : Prop :=
  ∀ (x : Nibble) (s t : State), s.mem.wf = true → 1 ≤ x.toNat → exec (.dump x) s = .next t →
    (t.wordAt t.I).toNat = 256 * (s.getV 0).toNat + (s.getV 1).toNat

/-- R60, R61: a byte written reads back at every address with the same low 12 bits, and every other address is unchanged. -/
def Obligations.ReadAfterWriteIsMasked : Prop :=
  ∀ (s : State) (a b : Nat) (v : Byte), s.mem.wf = true →
    (s.storeBytes a [v]).memRead b = if b % 4096 = a % 4096 then v else s.memRead b

/-! ## Display -/

/-- R200. -/
def Obligations.ClearDisplayClearsEveryPixel : Prop :=
  HasRow 0xFFFF 0x00E0 (fun _ => .cls) ∧
  ∀ s : State, ∃ t, exec .cls s = .next t ∧ (∀ row col, Frame.pixel t.fb row col = false) ∧ { t with fb := s.fb } = s

/-- R202: a draw as one parallel update. The pixel under sprite bit (r, c) is exclusive-ored with it, every pixel under no
sprite position is unchanged, and VF tells whether a set bit lay over a set pixel. Coordinates and I are read first, VF is
written last (D11), also for x or y = F and for n = 0 (C8). -/
def Obligations.DrawIsOneParallelUpdate : Prop :=
  ∀ (x y n : Nibble) (s : State), ∃ t, exec (.drw x y n) s = .next t ∧
    (∀ r c, r < n.toNat → c < 8 →
      Frame.pixel t.fb ((s.getV y).toNat + r) ((s.getV x).toNat + c) =
        (Frame.pixel s.fb ((s.getV y).toNat + r) ((s.getV x).toNat + c) ^^
          (s.memRead (s.I.toNat + r)).getLsbD (7 - c))) ∧
    (∀ row col, (∀ r c, r < n.toNat → c < 8 →
        ¬ (row % 32 = ((s.getV y).toNat + r) % 32 ∧ col % 64 = ((s.getV x).toNat + c) % 64)) →
      Frame.pixel t.fb row col = Frame.pixel s.fb row col) ∧
    (Collides s x y n → t.getV 0xF = 1) ∧ (¬ Collides s x y n → t.getV 0xF = 0) ∧
    (∀ z, z ≠ 0xF → t.getV z = s.getV z) ∧ { t with V := s.V, fb := s.fb } = s

/-- R201: "Drawing the same sprite twice at the same location clears it (double XOR is identity) and VF is 1 on the second
draw (collision) but 0 on the first draw onto a blank area", for coordinates not in VF and a sprite with a set bit. -/
def Obligations.DrawingTwiceRestoresTheScreen : Prop :=
  ∀ (x y n : Nibble) (s t u : State), x ≠ 0xF → y ≠ 0xF →
    exec (.drw x y n) s = .next t → exec (.drw x y n) t = .next u →
    u.fb = s.fb ∧
    ((∀ row col, Frame.pixel s.fb row col = false) → t.getV 0xF = 0 ∧
      ((∃ r, r < n.toNat ∧ s.memRead (s.I.toNat + r) ≠ 0) → u.getV 0xF = 1))

/-! ## Keys and timers -/

/-- R220, R221 (D32, D13: log 12, 13): Ex9E is SKP and ExA1 is SKNP; each takes one sample of the keys and skips on the key whose code is the low nibble of Vx, pressed
for SKP and not pressed for SKNP. -/
def Obligations.KeySkipsSampleTheKeys : Prop :=
  HasRow 0xF0FF 0xE09E (fun w => .skp (w.extractLsb' 8 4)) ∧
  HasRow 0xF0FF 0xE0A1 (fun w => .sknp (w.extractLsb' 8 4)) ∧
  ∀ (x : Nibble) (s : State),
    let taken := { s.env with keySamples := s.env.keySamples.tail, keyCount := s.env.keyCount + 1 }
    let held := s.keysNow.getLsbD ((s.getV x).toNat % 16)
    exec (.skp x) s = .next { s with env := taken, pc := if held = true then s.pc + 2 else s.pc } ∧
    exec (.sknp x) s = .next { s with env := taken, pc := if held = true then s.pc else s.pc + 2 }

/-- R222, R224, R225 (D31, log 11): Fx07 reads DT, Fx15 writes DT, Fx18 writes ST, and nothing else changes. -/
def Obligations.TimerMoves : Prop :=
  HasRow 0xF0FF 0xF007 (fun w => .ldVxDT (w.extractLsb' 8 4)) ∧
  HasRow 0xF0FF 0xF015 (fun w => .ldDTVx (w.extractLsb' 8 4)) ∧
  HasRow 0xF0FF 0xF018 (fun w => .ldSTVx (w.extractLsb' 8 4)) ∧
  ∀ (x : Nibble) (s : State),
    (∃ t, exec (.ldVxDT x) s = .next t ∧ WritesReg s t x s.DT) ∧
    exec (.ldDTVx x) s = .next { s with DT := s.getV x } ∧
    exec (.ldSTVx x) s = .next { s with ST := s.getV x }

/-- R223, R249 (D15): Fx0A begins the wait and writes no register; then any number of Steps and timer ticks leaves every
register and `pc` as they are, and a delivered key lands in Vx and ends the wait. -/
def Obligations.WaitForKeyLastsUntilADelivery : Prop :=
  ∀ (x : Nibble) (s : State), exec (.ldVxK x) s = .next { s with paused := true, waitX := x } ∧
    ∀ (ops : List Operation) (k : Nibble), s.halted = false → (∀ op ∈ ops, op = .step ∨ op = .timerTick) →
      ∃ t u, performAll ops { s with paused := true, waitX := x } = .next t ∧ t.V = s.V ∧ t.pc = s.pc ∧ t.paused = true ∧
        performAll [.deliverKey k] t = .next u ∧ u.paused = false ∧ u.pc = s.pc ∧
        u.getV x = k.setWidth 8 ∧ ∀ y, y ≠ x → u.getV y = s.getV y

/-- R225, R254, R250: after Fx18 the tone lasts for as many ticks as Vx said (D31, D19). -/
def Obligations.ToneLastsAsManyTicksAsSet : Prop :=
  ∀ (x : Nibble) (s t : State) (k : Nat), exec (.ldSTVx x) s = .next t →
    ∃ u, performAll (List.replicate k .timerTick) t = .next u ∧ (u.soundOn = true ↔ k < (s.getV x).toNat)

/-! ## Whole-machine rules -/

/-- R126: each piece of state changes only by the instructions whose rules name it. -/
def Obligations.StateChangesOnlyByItsInstructions : Prop :=
  ∀ (i : Instr) (s t : State), exec i s = .next t →
    (t.DT ≠ s.DT → ∃ x, i = .ldDTVx x) ∧
    (t.ST ≠ s.ST → ∃ x, i = .ldSTVx x) ∧
    (t.fb ≠ s.fb → i = .cls ∨ ∃ x y n, i = .drw x y n) ∧
    (t.stack ≠ s.stack → i = .ret ∨ ∃ nnn, i = .call nnn) ∧
    (t.I ≠ s.I → (∃ nnn, i = .ldI nnn) ∨ (∃ x, i = .addI x) ∨ ∃ x, i = .ldF x) ∧
    ((∃ a, t.memRead a ≠ s.memRead a) → (∃ x, i = .ldB x) ∨ ∃ x, i = .dump x) ∧
    (t.paused ≠ s.paused ∨ t.waitX ≠ s.waitX → ∃ x, i = .ldVxK x) ∧
    ((t.halted ≠ s.halted ∨ t.errCode ≠ s.errCode ∨ t.errPc ≠ s.errPc ∨ t.errOp ≠ s.errOp) →
      (i = .ret ∧ s.stack = []) ∨ ((∃ nnn, i = .call nnn) ∧ s.sp = s.stackDepth)) ∧
    (t.env ≠ s.env → samples i = true) ∧
    t.stackDepth = s.stackDepth

/-- A register changes only as a named destination, or, VF, as a flag: every instruction's register frame. -/
def Obligations.RegistersChangeOnlyAsDestinations : Prop :=
  ∀ (i : Instr) (s t : State) (y : Nibble), exec i s = .next t → isDestination y i = false →
    (producesFlag i = true → y ≠ 0xF) → t.getV y = s.getV y

/-- R225, R36: no instruction reads ST: what a Step does to the rest of the state does not depend on it. -/
def Obligations.NoInstructionReadsTheSoundTimer : Prop :=
  ∀ (i : Instr) (s t : State) (b : Byte), exec i s = .next t →
    ∃ u, exec i { s with ST := b } = .next u ∧ { u with ST := t.ST } = t ∧
      ((∀ x, i ≠ .ldSTVx x) → u.ST = b)

/-- R285 (D28): at a jump to itself the state is a fixed point of Step. -/
def Obligations.SelfJumpIsAFixedPoint : Prop :=
  ∀ s : State, s.idle = true → perform .step s = .next s

/-! ## The order of operations -/

/-- R251 (D21, D26; its form in the model: log 1): an execution is one operation after another, without end. A step performs the
operation the surroundings invoke next; after it the rest of their order stands unchanged, from every state; every finite order
is some state's, and after it any operation can come, for ever. -/
def Obligations.StepsFollowTheOrderOfOperations : Prop :=
  (∀ s : State, step s = perform (s.schedule 0) { s with
    env := { s.env with script := s.env.script.tail, opCount := s.env.opCount + 1 } }) ∧
  (∀ (s t : State) (n : Nat), step s = .next t → t.schedule n = s.schedule (n + 1)) ∧
  (∀ (s : State) (ops : List Operation),
    let u := { s with env := { s.env with script := ops } }
    (∀ n (h : n < ops.length), u.schedule n = ops[n]) ∧
    (∀ n, u.schedule (ops.length + n) = Config.freeOperation (s.env.opCount + (ops.length + n))))
end

