-- ==== Sys2Proof/Laws/Decode.lean ====
section
/-! SUPPORT. The opcode map is unambiguous (spec/30_encoding.md R94), the fields of an encoded word read back, and every
instruction is well formed. -/

namespace Sys2Proof

/-! ## Rows -/

/-- Two rows that no word can match together: some bit both compare has different values. -/
def OpRow.disjoint (r q : OpRow) : Bool := (r.mask &&& q.mask &&& (r.pattern ^^^ q.pattern)) != 0

theorem OpRow.not_hits_of_disjoint {r q : OpRow} (h : r.disjoint q = true) {w : Word} (hw : r.hits w = true) :
    q.hits w = false := by
  simp only [OpRow.disjoint, OpRow.hits, bne_iff_ne, beq_iff_eq, beq_eq_false_iff_ne, ne_eq] at *
  intro hq
  apply h
  rw [← hw, ← hq]
  ext i hi
  simp
  cases r.mask[i] <;> cases q.mask[i] <;> cases w[i] <;> simp

/-- No two rows of the opcode map overlap (R94). -/
theorem opRows_disjoint : opRows.Pairwise (fun r q => r.disjoint q = true) := by
  have h : (opRows.map fun r => (r.mask, r.pattern)).Pairwise
      (fun a b => ((a.1 &&& b.1 &&& (a.2 ^^^ b.2)) != 0) = true) := by decide
  simpa [List.pairwise_map, OpRow.disjoint] using h

theorem find_of_pairwise_disjoint {rows : List OpRow} (h : rows.Pairwise (fun r q => r.disjoint q = true))
    {r : OpRow} (hr : r ∈ rows) {w : Word} (hw : r.hits w = true) : rows.find? (·.hits w) = some r := by
  induction rows with
  | nil => simp at hr
  | cons q rows ih =>
    rw [List.pairwise_cons] at h
    rcases List.mem_cons.mp hr with rfl | hm
    · simp [hw]
    · have : q.hits w = false := by
        by_contra hq
        have := OpRow.not_hits_of_disjoint (h.1 r hm) (Bool.eq_true_of_not_eq_false hq)
        simp [hw] at this
      simp [this, ih h.2 hm]

/-- The order in which the rows are tried does not matter (R94): a row a word matches is the row it decodes by. -/
theorem decode_of_row {r : OpRow} (hr : r ∈ opRows) {w : Word} (hw : r.hits w = true) : decode w = some (r.build w) := by
  rw [decode, find_of_pairwise_disjoint opRows_disjoint hr hw]; rfl

/-- A decoded word matches the row it was decoded by. -/
theorem row_of_decode {w : Word} {i : Instr} (h : decode w = some i) :
    ∃ r ∈ opRows, r.hits w = true ∧ i = r.build w := by
  simp only [decode, Option.map_eq_some_iff] at h
  obtain ⟨r, hf, rfl⟩ := h
  exact ⟨r, List.mem_of_find?_eq_some hf, by simpa using List.find?_some hf, rfl⟩

/-- A word decodes to nothing exactly when no row matches it (R96). -/
theorem decode_eq_none_iff (w : Word) : decode w = none ↔ ∀ r ∈ opRows, r.hits w = false := by
  simp [decode, List.find?_eq_none]

/-! ## The two bytes of a word (R64) -/

theorem getLsbD_wordOf (hi lo : Byte) (i : Nat) :
    (wordOf hi lo).getLsbD i = if i < 8 then lo.getLsbD i else hi.getLsbD (i - 8) := by
  rw [wordOf, BitVec.getLsbD_append]

@[simp] theorem wordOf_bytes (w : Word) : wordOf (highByte w) (lowByte w) = w := by
  apply BitVec.eq_of_getLsbD_eq
  intro i hi
  rw [getLsbD_wordOf]
  simp only [highByte, lowByte]
  interval_cases i <;> simp

@[simp] theorem highByte_wordOf (hi lo : Byte) : highByte (wordOf hi lo) = hi := by
  apply BitVec.eq_of_getLsbD_eq
  intro i hi
  simp only [highByte, BitVec.getLsbD_extractLsb', getLsbD_wordOf]
  simp [hi]

@[simp] theorem lowByte_wordOf (hi lo : Byte) : lowByte (wordOf hi lo) = lo := by
  apply BitVec.eq_of_getLsbD_eq
  intro i hi
  simp only [lowByte, BitVec.getLsbD_extractLsb', getLsbD_wordOf]
  simp [hi]

/-! ## Well-formedness -/

@[simp] theorem nibbleField_fits (x : Nibble) : (nibbleField x).fits = true := by
  exact decide_eq_true x.isLt

@[simp] theorem kkField_fits (kk : Byte) : (kkField kk).fits = true := by
  exact decide_eq_true kk.isLt

@[simp] theorem nnnField_fits (nnn : Imm12) : (nnnField nnn).fits = true := by
  exact decide_eq_true nnn.isLt

/-- The widths stand in the types, so every instruction is well formed. -/
theorem Instr.wellFormed_eq_true (i : Instr) : i.wellFormed = true := by
  cases i <;> simp [Instr.wellFormed, Instr.operands]

end Sys2Proof
end

