-- ==== Sys2Proof/Laws/State.lean ====
section
/-! SUPPORT. One lemma per field per update of the state, and the reads of a register and of a byte of memory through every
update, so that no proof unfolds a record update. -/

namespace Sys2Proof.Machine

variable (s : State)

/-! ## setV -/

@[simp] theorem State.setV_V (x : Nibble) (b : Byte) : (s.setV x b).V = s.V.set x.toNat b x.isLt := rfl
@[simp] theorem State.setV_I (x : Nibble) (b : Byte) : (s.setV x b).I = s.I := rfl
@[simp] theorem State.setV_pc (x : Nibble) (b : Byte) : (s.setV x b).pc = s.pc := rfl
@[simp] theorem State.setV_stack (x : Nibble) (b : Byte) : (s.setV x b).stack = s.stack := rfl
@[simp] theorem State.setV_DT (x : Nibble) (b : Byte) : (s.setV x b).DT = s.DT := rfl
@[simp] theorem State.setV_ST (x : Nibble) (b : Byte) : (s.setV x b).ST = s.ST := rfl
@[simp] theorem State.setV_mem (x : Nibble) (b : Byte) : (s.setV x b).mem = s.mem := rfl
@[simp] theorem State.setV_fb (x : Nibble) (b : Byte) : (s.setV x b).fb = s.fb := rfl
@[simp] theorem State.setV_paused (x : Nibble) (b : Byte) : (s.setV x b).paused = s.paused := rfl
@[simp] theorem State.setV_waitX (x : Nibble) (b : Byte) : (s.setV x b).waitX = s.waitX := rfl
@[simp] theorem State.setV_halted (x : Nibble) (b : Byte) : (s.setV x b).halted = s.halted := rfl
@[simp] theorem State.setV_errCode (x : Nibble) (b : Byte) : (s.setV x b).errCode = s.errCode := rfl
@[simp] theorem State.setV_errPc (x : Nibble) (b : Byte) : (s.setV x b).errPc = s.errPc := rfl
@[simp] theorem State.setV_errOp (x : Nibble) (b : Byte) : (s.setV x b).errOp = s.errOp := rfl
@[simp] theorem State.setV_stackDepth (x : Nibble) (b : Byte) : (s.setV x b).stackDepth = s.stackDepth := rfl
@[simp] theorem State.setV_env (x : Nibble) (b : Byte) : (s.setV x b).env = s.env := rfl

/-! ## setI -/

@[simp] theorem State.setI_V (w : Word) : (s.setI w).V = s.V := rfl
@[simp] theorem State.setI_I (w : Word) : (s.setI w).I = w := rfl
@[simp] theorem State.setI_pc (w : Word) : (s.setI w).pc = s.pc := rfl
@[simp] theorem State.setI_stack (w : Word) : (s.setI w).stack = s.stack := rfl
@[simp] theorem State.setI_DT (w : Word) : (s.setI w).DT = s.DT := rfl
@[simp] theorem State.setI_ST (w : Word) : (s.setI w).ST = s.ST := rfl
@[simp] theorem State.setI_mem (w : Word) : (s.setI w).mem = s.mem := rfl
@[simp] theorem State.setI_fb (w : Word) : (s.setI w).fb = s.fb := rfl
@[simp] theorem State.setI_paused (w : Word) : (s.setI w).paused = s.paused := rfl
@[simp] theorem State.setI_waitX (w : Word) : (s.setI w).waitX = s.waitX := rfl
@[simp] theorem State.setI_halted (w : Word) : (s.setI w).halted = s.halted := rfl
@[simp] theorem State.setI_errCode (w : Word) : (s.setI w).errCode = s.errCode := rfl
@[simp] theorem State.setI_errPc (w : Word) : (s.setI w).errPc = s.errPc := rfl
@[simp] theorem State.setI_errOp (w : Word) : (s.setI w).errOp = s.errOp := rfl
@[simp] theorem State.setI_stackDepth (w : Word) : (s.setI w).stackDepth = s.stackDepth := rfl
@[simp] theorem State.setI_env (w : Word) : (s.setI w).env = s.env := rfl

/-! ## setPc -/

@[simp] theorem State.setPc_V (w : Word) : (s.setPc w).V = s.V := rfl
@[simp] theorem State.setPc_I (w : Word) : (s.setPc w).I = s.I := rfl
@[simp] theorem State.setPc_pc (w : Word) : (s.setPc w).pc = w := rfl
@[simp] theorem State.setPc_stack (w : Word) : (s.setPc w).stack = s.stack := rfl
@[simp] theorem State.setPc_DT (w : Word) : (s.setPc w).DT = s.DT := rfl
@[simp] theorem State.setPc_ST (w : Word) : (s.setPc w).ST = s.ST := rfl
@[simp] theorem State.setPc_mem (w : Word) : (s.setPc w).mem = s.mem := rfl
@[simp] theorem State.setPc_fb (w : Word) : (s.setPc w).fb = s.fb := rfl
@[simp] theorem State.setPc_paused (w : Word) : (s.setPc w).paused = s.paused := rfl
@[simp] theorem State.setPc_waitX (w : Word) : (s.setPc w).waitX = s.waitX := rfl
@[simp] theorem State.setPc_halted (w : Word) : (s.setPc w).halted = s.halted := rfl
@[simp] theorem State.setPc_errCode (w : Word) : (s.setPc w).errCode = s.errCode := rfl
@[simp] theorem State.setPc_errPc (w : Word) : (s.setPc w).errPc = s.errPc := rfl
@[simp] theorem State.setPc_errOp (w : Word) : (s.setPc w).errOp = s.errOp := rfl
@[simp] theorem State.setPc_stackDepth (w : Word) : (s.setPc w).stackDepth = s.stackDepth := rfl
@[simp] theorem State.setPc_env (w : Word) : (s.setPc w).env = s.env := rfl

/-! ## setStack -/

@[simp] theorem State.setStack_V (st : List Word) : (s.setStack st).V = s.V := rfl
@[simp] theorem State.setStack_I (st : List Word) : (s.setStack st).I = s.I := rfl
@[simp] theorem State.setStack_pc (st : List Word) : (s.setStack st).pc = s.pc := rfl
@[simp] theorem State.setStack_stack (st : List Word) : (s.setStack st).stack = st := rfl
@[simp] theorem State.setStack_DT (st : List Word) : (s.setStack st).DT = s.DT := rfl
@[simp] theorem State.setStack_ST (st : List Word) : (s.setStack st).ST = s.ST := rfl
@[simp] theorem State.setStack_mem (st : List Word) : (s.setStack st).mem = s.mem := rfl
@[simp] theorem State.setStack_fb (st : List Word) : (s.setStack st).fb = s.fb := rfl
@[simp] theorem State.setStack_paused (st : List Word) : (s.setStack st).paused = s.paused := rfl
@[simp] theorem State.setStack_waitX (st : List Word) : (s.setStack st).waitX = s.waitX := rfl
@[simp] theorem State.setStack_halted (st : List Word) : (s.setStack st).halted = s.halted := rfl
@[simp] theorem State.setStack_errCode (st : List Word) : (s.setStack st).errCode = s.errCode := rfl
@[simp] theorem State.setStack_errPc (st : List Word) : (s.setStack st).errPc = s.errPc := rfl
@[simp] theorem State.setStack_errOp (st : List Word) : (s.setStack st).errOp = s.errOp := rfl
@[simp] theorem State.setStack_stackDepth (st : List Word) : (s.setStack st).stackDepth = s.stackDepth := rfl
@[simp] theorem State.setStack_env (st : List Word) : (s.setStack st).env = s.env := rfl

/-! ## setDT -/

@[simp] theorem State.setDT_V (b : Byte) : (s.setDT b).V = s.V := rfl
@[simp] theorem State.setDT_I (b : Byte) : (s.setDT b).I = s.I := rfl
@[simp] theorem State.setDT_pc (b : Byte) : (s.setDT b).pc = s.pc := rfl
@[simp] theorem State.setDT_stack (b : Byte) : (s.setDT b).stack = s.stack := rfl
@[simp] theorem State.setDT_DT (b : Byte) : (s.setDT b).DT = b := rfl
@[simp] theorem State.setDT_ST (b : Byte) : (s.setDT b).ST = s.ST := rfl
@[simp] theorem State.setDT_mem (b : Byte) : (s.setDT b).mem = s.mem := rfl
@[simp] theorem State.setDT_fb (b : Byte) : (s.setDT b).fb = s.fb := rfl
@[simp] theorem State.setDT_paused (b : Byte) : (s.setDT b).paused = s.paused := rfl
@[simp] theorem State.setDT_waitX (b : Byte) : (s.setDT b).waitX = s.waitX := rfl
@[simp] theorem State.setDT_halted (b : Byte) : (s.setDT b).halted = s.halted := rfl
@[simp] theorem State.setDT_errCode (b : Byte) : (s.setDT b).errCode = s.errCode := rfl
@[simp] theorem State.setDT_errPc (b : Byte) : (s.setDT b).errPc = s.errPc := rfl
@[simp] theorem State.setDT_errOp (b : Byte) : (s.setDT b).errOp = s.errOp := rfl
@[simp] theorem State.setDT_stackDepth (b : Byte) : (s.setDT b).stackDepth = s.stackDepth := rfl
@[simp] theorem State.setDT_env (b : Byte) : (s.setDT b).env = s.env := rfl

/-! ## setST -/

@[simp] theorem State.setST_V (b : Byte) : (s.setST b).V = s.V := rfl
@[simp] theorem State.setST_I (b : Byte) : (s.setST b).I = s.I := rfl
@[simp] theorem State.setST_pc (b : Byte) : (s.setST b).pc = s.pc := rfl
@[simp] theorem State.setST_stack (b : Byte) : (s.setST b).stack = s.stack := rfl
@[simp] theorem State.setST_DT (b : Byte) : (s.setST b).DT = s.DT := rfl
@[simp] theorem State.setST_ST (b : Byte) : (s.setST b).ST = b := rfl
@[simp] theorem State.setST_mem (b : Byte) : (s.setST b).mem = s.mem := rfl
@[simp] theorem State.setST_fb (b : Byte) : (s.setST b).fb = s.fb := rfl
@[simp] theorem State.setST_paused (b : Byte) : (s.setST b).paused = s.paused := rfl
@[simp] theorem State.setST_waitX (b : Byte) : (s.setST b).waitX = s.waitX := rfl
@[simp] theorem State.setST_halted (b : Byte) : (s.setST b).halted = s.halted := rfl
@[simp] theorem State.setST_errCode (b : Byte) : (s.setST b).errCode = s.errCode := rfl
@[simp] theorem State.setST_errPc (b : Byte) : (s.setST b).errPc = s.errPc := rfl
@[simp] theorem State.setST_errOp (b : Byte) : (s.setST b).errOp = s.errOp := rfl
@[simp] theorem State.setST_stackDepth (b : Byte) : (s.setST b).stackDepth = s.stackDepth := rfl
@[simp] theorem State.setST_env (b : Byte) : (s.setST b).env = s.env := rfl

/-! ## setMem -/

@[simp] theorem State.setMem_V (m : Memory) : (s.setMem m).V = s.V := rfl
@[simp] theorem State.setMem_I (m : Memory) : (s.setMem m).I = s.I := rfl
@[simp] theorem State.setMem_pc (m : Memory) : (s.setMem m).pc = s.pc := rfl
@[simp] theorem State.setMem_stack (m : Memory) : (s.setMem m).stack = s.stack := rfl
@[simp] theorem State.setMem_DT (m : Memory) : (s.setMem m).DT = s.DT := rfl
@[simp] theorem State.setMem_ST (m : Memory) : (s.setMem m).ST = s.ST := rfl
@[simp] theorem State.setMem_mem (m : Memory) : (s.setMem m).mem = m := rfl
@[simp] theorem State.setMem_fb (m : Memory) : (s.setMem m).fb = s.fb := rfl
@[simp] theorem State.setMem_paused (m : Memory) : (s.setMem m).paused = s.paused := rfl
@[simp] theorem State.setMem_waitX (m : Memory) : (s.setMem m).waitX = s.waitX := rfl
@[simp] theorem State.setMem_halted (m : Memory) : (s.setMem m).halted = s.halted := rfl
@[simp] theorem State.setMem_errCode (m : Memory) : (s.setMem m).errCode = s.errCode := rfl
@[simp] theorem State.setMem_errPc (m : Memory) : (s.setMem m).errPc = s.errPc := rfl
@[simp] theorem State.setMem_errOp (m : Memory) : (s.setMem m).errOp = s.errOp := rfl
@[simp] theorem State.setMem_stackDepth (m : Memory) : (s.setMem m).stackDepth = s.stackDepth := rfl
@[simp] theorem State.setMem_env (m : Memory) : (s.setMem m).env = s.env := rfl

/-! ## setFb -/

@[simp] theorem State.setFb_V (f : Frame) : (s.setFb f).V = s.V := rfl
@[simp] theorem State.setFb_I (f : Frame) : (s.setFb f).I = s.I := rfl
@[simp] theorem State.setFb_pc (f : Frame) : (s.setFb f).pc = s.pc := rfl
@[simp] theorem State.setFb_stack (f : Frame) : (s.setFb f).stack = s.stack := rfl
@[simp] theorem State.setFb_DT (f : Frame) : (s.setFb f).DT = s.DT := rfl
@[simp] theorem State.setFb_ST (f : Frame) : (s.setFb f).ST = s.ST := rfl
@[simp] theorem State.setFb_mem (f : Frame) : (s.setFb f).mem = s.mem := rfl
@[simp] theorem State.setFb_fb (f : Frame) : (s.setFb f).fb = f := rfl
@[simp] theorem State.setFb_paused (f : Frame) : (s.setFb f).paused = s.paused := rfl
@[simp] theorem State.setFb_waitX (f : Frame) : (s.setFb f).waitX = s.waitX := rfl
@[simp] theorem State.setFb_halted (f : Frame) : (s.setFb f).halted = s.halted := rfl
@[simp] theorem State.setFb_errCode (f : Frame) : (s.setFb f).errCode = s.errCode := rfl
@[simp] theorem State.setFb_errPc (f : Frame) : (s.setFb f).errPc = s.errPc := rfl
@[simp] theorem State.setFb_errOp (f : Frame) : (s.setFb f).errOp = s.errOp := rfl
@[simp] theorem State.setFb_stackDepth (f : Frame) : (s.setFb f).stackDepth = s.stackDepth := rfl
@[simp] theorem State.setFb_env (f : Frame) : (s.setFb f).env = s.env := rfl

/-! ## setEnv -/

@[simp] theorem State.setEnv_V (e : Environment) : (s.setEnv e).V = s.V := rfl
@[simp] theorem State.setEnv_I (e : Environment) : (s.setEnv e).I = s.I := rfl
@[simp] theorem State.setEnv_pc (e : Environment) : (s.setEnv e).pc = s.pc := rfl
@[simp] theorem State.setEnv_stack (e : Environment) : (s.setEnv e).stack = s.stack := rfl
@[simp] theorem State.setEnv_DT (e : Environment) : (s.setEnv e).DT = s.DT := rfl
@[simp] theorem State.setEnv_ST (e : Environment) : (s.setEnv e).ST = s.ST := rfl
@[simp] theorem State.setEnv_mem (e : Environment) : (s.setEnv e).mem = s.mem := rfl
@[simp] theorem State.setEnv_fb (e : Environment) : (s.setEnv e).fb = s.fb := rfl
@[simp] theorem State.setEnv_paused (e : Environment) : (s.setEnv e).paused = s.paused := rfl
@[simp] theorem State.setEnv_waitX (e : Environment) : (s.setEnv e).waitX = s.waitX := rfl
@[simp] theorem State.setEnv_halted (e : Environment) : (s.setEnv e).halted = s.halted := rfl
@[simp] theorem State.setEnv_errCode (e : Environment) : (s.setEnv e).errCode = s.errCode := rfl
@[simp] theorem State.setEnv_errPc (e : Environment) : (s.setEnv e).errPc = s.errPc := rfl
@[simp] theorem State.setEnv_errOp (e : Environment) : (s.setEnv e).errOp = s.errOp := rfl
@[simp] theorem State.setEnv_stackDepth (e : Environment) : (s.setEnv e).stackDepth = s.stackDepth := rfl
@[simp] theorem State.setEnv_env (e : Environment) : (s.setEnv e).env = e := rfl

/-! ## beginWait -/

@[simp] theorem State.beginWait_V (x : Nibble) : (s.beginWait x).V = s.V := rfl
@[simp] theorem State.beginWait_I (x : Nibble) : (s.beginWait x).I = s.I := rfl
@[simp] theorem State.beginWait_pc (x : Nibble) : (s.beginWait x).pc = s.pc := rfl
@[simp] theorem State.beginWait_stack (x : Nibble) : (s.beginWait x).stack = s.stack := rfl
@[simp] theorem State.beginWait_DT (x : Nibble) : (s.beginWait x).DT = s.DT := rfl
@[simp] theorem State.beginWait_ST (x : Nibble) : (s.beginWait x).ST = s.ST := rfl
@[simp] theorem State.beginWait_mem (x : Nibble) : (s.beginWait x).mem = s.mem := rfl
@[simp] theorem State.beginWait_fb (x : Nibble) : (s.beginWait x).fb = s.fb := rfl
@[simp] theorem State.beginWait_paused (x : Nibble) : (s.beginWait x).paused = true := rfl
@[simp] theorem State.beginWait_waitX (x : Nibble) : (s.beginWait x).waitX = x := rfl
@[simp] theorem State.beginWait_halted (x : Nibble) : (s.beginWait x).halted = s.halted := rfl
@[simp] theorem State.beginWait_errCode (x : Nibble) : (s.beginWait x).errCode = s.errCode := rfl
@[simp] theorem State.beginWait_errPc (x : Nibble) : (s.beginWait x).errPc = s.errPc := rfl
@[simp] theorem State.beginWait_errOp (x : Nibble) : (s.beginWait x).errOp = s.errOp := rfl
@[simp] theorem State.beginWait_stackDepth (x : Nibble) : (s.beginWait x).stackDepth = s.stackDepth := rfl
@[simp] theorem State.beginWait_env (x : Nibble) : (s.beginWait x).env = s.env := rfl

/-! ## endWait -/

@[simp] theorem State.endWait_V : s.endWait.V = s.V := rfl
@[simp] theorem State.endWait_I : s.endWait.I = s.I := rfl
@[simp] theorem State.endWait_pc : s.endWait.pc = s.pc := rfl
@[simp] theorem State.endWait_stack : s.endWait.stack = s.stack := rfl
@[simp] theorem State.endWait_DT : s.endWait.DT = s.DT := rfl
@[simp] theorem State.endWait_ST : s.endWait.ST = s.ST := rfl
@[simp] theorem State.endWait_mem : s.endWait.mem = s.mem := rfl
@[simp] theorem State.endWait_fb : s.endWait.fb = s.fb := rfl
@[simp] theorem State.endWait_paused : s.endWait.paused = false := rfl
@[simp] theorem State.endWait_waitX : s.endWait.waitX = s.waitX := rfl
@[simp] theorem State.endWait_halted : s.endWait.halted = s.halted := rfl
@[simp] theorem State.endWait_errCode : s.endWait.errCode = s.errCode := rfl
@[simp] theorem State.endWait_errPc : s.endWait.errPc = s.errPc := rfl
@[simp] theorem State.endWait_errOp : s.endWait.errOp = s.errOp := rfl
@[simp] theorem State.endWait_stackDepth : s.endWait.stackDepth = s.stackDepth := rfl
@[simp] theorem State.endWait_env : s.endWait.env = s.env := rfl

/-! ## raise -/

@[simp] theorem State.raise_V (e : ErrorKind) (a op : Word) : (s.raise e a op).V = s.V := rfl
@[simp] theorem State.raise_I (e : ErrorKind) (a op : Word) : (s.raise e a op).I = s.I := rfl
@[simp] theorem State.raise_pc (e : ErrorKind) (a op : Word) : (s.raise e a op).pc = s.pc := rfl
@[simp] theorem State.raise_stack (e : ErrorKind) (a op : Word) : (s.raise e a op).stack = s.stack := rfl
@[simp] theorem State.raise_DT (e : ErrorKind) (a op : Word) : (s.raise e a op).DT = s.DT := rfl
@[simp] theorem State.raise_ST (e : ErrorKind) (a op : Word) : (s.raise e a op).ST = s.ST := rfl
@[simp] theorem State.raise_mem (e : ErrorKind) (a op : Word) : (s.raise e a op).mem = s.mem := rfl
@[simp] theorem State.raise_fb (e : ErrorKind) (a op : Word) : (s.raise e a op).fb = s.fb := rfl
@[simp] theorem State.raise_paused (e : ErrorKind) (a op : Word) : (s.raise e a op).paused = s.paused := rfl
@[simp] theorem State.raise_waitX (e : ErrorKind) (a op : Word) : (s.raise e a op).waitX = s.waitX := rfl
@[simp] theorem State.raise_halted (e : ErrorKind) (a op : Word) : (s.raise e a op).halted = true := rfl
@[simp] theorem State.raise_errCode (e : ErrorKind) (a op : Word) : (s.raise e a op).errCode = e.code := rfl
@[simp] theorem State.raise_errPc (e : ErrorKind) (a op : Word) : (s.raise e a op).errPc = a := rfl
@[simp] theorem State.raise_errOp (e : ErrorKind) (a op : Word) : (s.raise e a op).errOp = op := rfl
@[simp] theorem State.raise_stackDepth (e : ErrorKind) (a op : Word) : (s.raise e a op).stackDepth = s.stackDepth := rfl
@[simp] theorem State.raise_env (e : ErrorKind) (a op : Word) : (s.raise e a op).env = s.env := rfl

/-! ## rejectLoad -/

@[simp] theorem State.rejectLoad_V : s.rejectLoad.V = s.V := rfl
@[simp] theorem State.rejectLoad_I : s.rejectLoad.I = s.I := rfl
@[simp] theorem State.rejectLoad_pc : s.rejectLoad.pc = s.pc := rfl
@[simp] theorem State.rejectLoad_stack : s.rejectLoad.stack = s.stack := rfl
@[simp] theorem State.rejectLoad_DT : s.rejectLoad.DT = s.DT := rfl
@[simp] theorem State.rejectLoad_ST : s.rejectLoad.ST = s.ST := rfl
@[simp] theorem State.rejectLoad_mem : s.rejectLoad.mem = s.mem := rfl
@[simp] theorem State.rejectLoad_fb : s.rejectLoad.fb = s.fb := rfl
@[simp] theorem State.rejectLoad_paused : s.rejectLoad.paused = s.paused := rfl
@[simp] theorem State.rejectLoad_waitX : s.rejectLoad.waitX = s.waitX := rfl
@[simp] theorem State.rejectLoad_halted : s.rejectLoad.halted = true := rfl
@[simp] theorem State.rejectLoad_errCode : s.rejectLoad.errCode = if s.halted then s.errCode else ErrorKind.loadOverflow.code := rfl
@[simp] theorem State.rejectLoad_errPc : s.rejectLoad.errPc = s.errPc := rfl
@[simp] theorem State.rejectLoad_errOp : s.rejectLoad.errOp = s.errOp := rfl
@[simp] theorem State.rejectLoad_stackDepth : s.rejectLoad.stackDepth = s.stackDepth := rfl
@[simp] theorem State.rejectLoad_env : s.rejectLoad.env = s.env := rfl

/-! ## Registers and bytes read through the other updates -/

@[simp] theorem State.setV_memRead (x : Nibble) (b : Byte) (addr : Nat) : (s.setV x b).memRead addr = s.memRead addr := rfl
@[simp] theorem State.setI_getV (w : Word) (y : Nibble) : (s.setI w).getV y = s.getV y := rfl
@[simp] theorem State.setI_memRead (w : Word) (addr : Nat) : (s.setI w).memRead addr = s.memRead addr := rfl
@[simp] theorem State.setPc_getV (w : Word) (y : Nibble) : (s.setPc w).getV y = s.getV y := rfl
@[simp] theorem State.setPc_memRead (w : Word) (addr : Nat) : (s.setPc w).memRead addr = s.memRead addr := rfl
@[simp] theorem State.setStack_getV (st : List Word) (y : Nibble) : (s.setStack st).getV y = s.getV y := rfl
@[simp] theorem State.setStack_memRead (st : List Word) (addr : Nat) : (s.setStack st).memRead addr = s.memRead addr := rfl
@[simp] theorem State.setDT_getV (b : Byte) (y : Nibble) : (s.setDT b).getV y = s.getV y := rfl
@[simp] theorem State.setDT_memRead (b : Byte) (addr : Nat) : (s.setDT b).memRead addr = s.memRead addr := rfl
@[simp] theorem State.setST_getV (b : Byte) (y : Nibble) : (s.setST b).getV y = s.getV y := rfl
@[simp] theorem State.setST_memRead (b : Byte) (addr : Nat) : (s.setST b).memRead addr = s.memRead addr := rfl
@[simp] theorem State.setMem_getV (m : Memory) (y : Nibble) : (s.setMem m).getV y = s.getV y := rfl
@[simp] theorem State.setFb_getV (f : Frame) (y : Nibble) : (s.setFb f).getV y = s.getV y := rfl
@[simp] theorem State.setFb_memRead (f : Frame) (addr : Nat) : (s.setFb f).memRead addr = s.memRead addr := rfl
@[simp] theorem State.setEnv_getV (e : Environment) (y : Nibble) : (s.setEnv e).getV y = s.getV y := rfl
@[simp] theorem State.setEnv_memRead (e : Environment) (addr : Nat) : (s.setEnv e).memRead addr = s.memRead addr := rfl
@[simp] theorem State.beginWait_getV (x : Nibble) (y : Nibble) : (s.beginWait x).getV y = s.getV y := rfl
@[simp] theorem State.beginWait_memRead (x : Nibble) (addr : Nat) : (s.beginWait x).memRead addr = s.memRead addr := rfl
@[simp] theorem State.endWait_getV (y : Nibble) : s.endWait.getV y = s.getV y := rfl
@[simp] theorem State.endWait_memRead (addr : Nat) : s.endWait.memRead addr = s.memRead addr := rfl
@[simp] theorem State.raise_getV (e : ErrorKind) (a op : Word) (y : Nibble) : (s.raise e a op).getV y = s.getV y := rfl
@[simp] theorem State.raise_memRead (e : ErrorKind) (a op : Word) (addr : Nat) : (s.raise e a op).memRead addr = s.memRead addr := rfl
@[simp] theorem State.rejectLoad_getV (y : Nibble) : s.rejectLoad.getV y = s.getV y := rfl
@[simp] theorem State.rejectLoad_memRead (addr : Nat) : s.rejectLoad.memRead addr = s.memRead addr := rfl

@[simp] theorem State.setMem_memRead (m : Memory) (addr : Nat) : (s.setMem m).memRead addr = m.read addr := rfl

theorem State.setV_getV (x y : Nibble) (b : Byte) : (s.setV x b).getV y = if y = x then b else s.getV y := by
  by_cases h : y = x
  · subst h; simp [State.getV, State.setV]
  · have hn : x.toNat ≠ y.toNat := fun e => h (BitVec.eq_of_toNat_eq e.symm)
    simp [State.getV, State.setV, Vector.getElem_set_ne, hn, h]

@[simp] theorem State.setV_getV_same (x : Nibble) (b : Byte) : (s.setV x b).getV x = b := by
  simp [State.setV_getV]

theorem State.setV_getV_of_ne {x y : Nibble} (h : y ≠ x) (b : Byte) : (s.setV x b).getV y = s.getV y := by
  simp [State.setV_getV, h]

/-- Two register files that agree on every register are equal. -/
theorem State.V_ext {s t : State} (h : ∀ x, s.getV x = t.getV x) : s.V = t.V := by
  refine Vector.ext fun i hi => ?_
  have := h (BitVec.ofNat 4 i)
  simpa [State.getV, Nat.mod_eq_of_lt hi] using this

/-! ## The derived updates, in terms of the named ones -/

@[simp] theorem State.advance_eq : s.advance = s.setPc (s.pc + 2) := rfl

@[simp] theorem State.push_eq (w : Word) : s.push w = s.setStack (w :: s.stack) := rfl

@[simp] theorem State.skipIf_eq (c : Bool) : s.skipIf c = s.setPc (if c then s.pc + 2 else s.pc) := rfl

@[simp] theorem State.storeBytes_eq (base : Nat) (bs : List Byte) :
    s.storeBytes base bs = s.setMem (s.mem.writeBytes base bs) := rfl

@[simp] theorem State.raiseIn_eq (i : Instr) (e : ErrorKind) :
    s.raiseIn i e = s.raise e (s.pc - 2) (encode i) := rfl

@[simp] theorem State.writeFlagged_eq (x : Nibble) (flag result : Byte) :
    s.writeFlagged x flag result = (s.setV 0xF flag).setV x result := rfl

@[simp] theorem State.timerTick_eq : s.timerTick = (s.setDT (countDown s.DT)).setST (countDown s.ST) := rfl

/-- The fetched word depends on memory alone. -/
theorem State.wordAt_congr {s t : State} (h : s.mem = t.mem) (a : Word) : s.wordAt a = t.wordAt a := by
  simp [State.wordAt, State.memRead, h]

/-! ## Loading registers (R185) -/

/-- Loading registers writes only V. -/
theorem State.loadRegs_setV (base k : Nat) : ∃ v, s.loadRegs base k = { s with V := v } := by
  induction k with
  | zero => exact ⟨s.V, rfl⟩
  | succ k ih =>
    obtain ⟨v, hv⟩ := ih
    exact ⟨_, by rw [State.loadRegs, hv]; rfl⟩

/-- The registers below k hold the bytes at base up; the others are unchanged (R185). -/
theorem State.loadRegs_getV (base : Nat) {k : Nat} (hk : k ≤ 16) (y : Nibble) :
    (s.loadRegs base k).getV y = if y.toNat < k then s.memRead (base + y.toNat) else s.getV y := by
  induction k with
  | zero => simp [State.loadRegs]
  | succ k ih =>
    have hy := y.isLt
    have hread : (BitVec.ofNat 4 k).toNat = k := by simp; omega
    rw [State.loadRegs, State.setV_getV, ih (by omega)]
    by_cases h : y = BitVec.ofNat 4 k
    · have : y.toNat = k := by rw [h, hread]
      simp [h, hread]
    · have : y.toNat ≠ k := fun e => h (BitVec.eq_of_toNat_eq (by rw [hread, e]))
      have : (y.toNat < k + 1) = (y.toNat < k) := by apply propext; omega
      simp [h, this]

end Sys2Proof.Machine
end

