-- ==== Sys2Proof/Laws/Frame.lean ====
section
/-! SUPPORT. The draw engine as one parallel update (spec/44_display.md R202): which pixels a sprite covers, what the loop of
R201 does to every pixel, and when it collides. -/

namespace Sys2Proof.Machine

theorem frameCol_lt (col : Nat) : frameCol col < 64 := Nat.mod_lt _ (by decide)

/-- Two frames that agree on every pixel are equal. -/
theorem Frame.ext_pixel {f g : Frame} (h : ∀ row col, Frame.pixel f row col = Frame.pixel g row col) : f = g := by
  refine Vector.ext fun i hi => BitVec.eq_of_getLsbD_eq fun j hj => ?_
  have := h i j
  simpa [Frame.pixel, frameRow, frameCol, Nat.mod_eq_of_lt hi, Nat.mod_eq_of_lt hj] using this

/-- Coordinates that differ by whole grids name the same pixel (R28). -/
theorem Frame.pixel_wrap (f : Frame) {row row' col col' : Nat} (hr : frameRow row = frameRow row')
    (hc : frameCol col = frameCol col') : Frame.pixel f row col = Frame.pixel f row' col' := by
  simp only [Frame.pixel, hr, hc]

@[simp] theorem Frame.pixel_clear (row col : Nat) : Frame.pixel Frame.clear row col = false := by
  simp [Frame.pixel, Frame.clear]

/-- A flip changes the pixel named and no other. -/
theorem Frame.pixel_flip (f : Frame) (row col row' col' : Nat) :
    Frame.pixel (Frame.flip f row col) row' col' =
      (Frame.pixel f row' col' ^^ (decide (frameRow row' = frameRow row) && decide (frameCol col' = frameCol col))) := by
  have hc := frameCol_lt col
  by_cases hr : frameRow row' = frameRow row
  · have hswap : (frameCol col = frameCol col') = (frameCol col' = frameCol col) := propext eq_comm
    simp [Frame.pixel, Frame.flip, hr, BitVec.getLsbD_twoPow, hc, hswap]
  · have : frameRow row ≠ frameRow row' := fun e => hr e.symm
    simp [Frame.pixel, Frame.flip, hr, Vector.getElem_set_ne, this]

/-! ## One sprite row -/

/-- Column col' is under a set bit among the first k of a sprite row at col. -/
def columnsCover (col : Nat) (b : Byte) (k col' : Nat) : Bool :=
  (List.range k).any fun c => spriteBit b c && decide (frameCol col' = frameCol (col + c))

/-- Some set bit among the first k lies over a set pixel. -/
def columnsHit (f : Frame) (col row : Nat) (b : Byte) (k : Nat) : Bool :=
  (List.range k).any fun c => spriteBit b c && Frame.pixel f row (col + c)

theorem columnsCover_succ (col : Nat) (b : Byte) (k col' : Nat) :
    columnsCover col b (k + 1) col' =
      (columnsCover col b k col' || (spriteBit b k && decide (frameCol col' = frameCol (col + k)))) := by
  simp [columnsCover, List.range_succ]

theorem columnsHit_succ (f : Frame) (col row : Nat) (b : Byte) (k : Nat) :
    columnsHit f col row b (k + 1) = (columnsHit f col row b k || (spriteBit b k && Frame.pixel f row (col + k))) := by
  simp [columnsHit, List.range_succ]

/-- Within one row no column is met twice (R202). -/
theorem columnsCover_fresh (col : Nat) (b : Byte) {k : Nat} (hk : k < 64) {col' : Nat}
    (h : frameCol col' = frameCol (col + k)) : columnsCover col b k col' = false := by
  simp only [columnsCover, List.any_eq_false, List.mem_range, Bool.and_eq_true, decide_eq_true_eq, not_and]
  intro c hc _
  simp only [frameCol, Config.fbWidth] at *
  omega

theorem drawColumns_pixel (f : Frame) (col row : Nat) (b : Byte) {k : Nat} (hk : k ≤ 64) (row' col' : Nat) :
    Frame.pixel (drawColumns f col row b k).1 row' col' =
      (Frame.pixel f row' col' ^^ (decide (frameRow row' = frameRow row) && columnsCover col b k col')) := by
  induction k with
  | zero => simp [drawColumns, columnsCover]
  | succ k ih =>
    have ih := ih (by omega)
    rw [columnsCover_succ]
    cases hb : spriteBit b k
    · simp [drawColumns, hb, ih]
    · by_cases hc : frameCol col' = frameCol (col + k)
      · simp [drawColumns, hb, Frame.pixel_flip, ih, columnsCover_fresh col b (show k < 64 by omega) hc, hc]
      · simp [drawColumns, hb, Frame.pixel_flip, ih, hc]

theorem drawColumns_hit (f : Frame) (col row : Nat) (b : Byte) {k : Nat} (hk : k ≤ 64) :
    (drawColumns f col row b k).2 = columnsHit f col row b k := by
  induction k with
  | zero => simp [drawColumns, columnsHit]
  | succ k ih =>
    have ih := ih (by omega)
    rw [columnsHit_succ, ← ih]
    cases hb : spriteBit b k
    · simp [drawColumns, hb]
    · simp [drawColumns, hb, drawColumns_pixel f col row b (show k ≤ 64 by omega),
        columnsCover_fresh col b (show k < 64 by omega) rfl]

/-! ## The whole sprite -/

/-- Pixel (row', col') is under a set bit of the sprite whose left column is col and top row is row. -/
def spriteCovers (col row : Nat) : List Byte → Nat → Nat → Bool
  | [], _, _ => false
  | b :: bs, row', col' =>
    (decide (frameRow row' = frameRow row) && columnsCover col b 8 col') || spriteCovers col (row + 1) bs row' col'

/-- Some set bit of the sprite lies over a set pixel. -/
def spriteHits (f : Frame) (col row : Nat) : List Byte → Bool
  | [] => false
  | b :: bs => columnsHit f col row b 8 || spriteHits f col (row + 1) bs

/-- Within one draw no row is met twice (R202). -/
theorem spriteCovers_fresh (col row : Nat) (bs : List Byte) {top : Nat} (hlt : top < row) (hl : row + bs.length ≤ top + 32)
    {row' : Nat} (h : frameRow row' = frameRow top) (col' : Nat) : spriteCovers col row bs row' col' = false := by
  induction bs generalizing row with
  | nil => rfl
  | cons b bs ih =>
    have hl' : row + (bs.length + 1) ≤ top + 32 := by simpa using hl
    have hne : frameRow row' ≠ frameRow row := by
      simp only [frameRow, Config.fbHeight] at *; omega
    simp [spriteCovers, ih (row + 1) (by omega) (by omega), hne]

/-- What a draw does to every pixel: the covered ones are exclusive-ored with 1, the others are left alone (R202). -/
theorem drawSprite_pixel (f : Frame) (col row : Nat) (bs : List Byte) (hl : bs.length ≤ 32) (row' col' : Nat) :
    Frame.pixel (drawSprite f col row bs).1 row' col' =
      (Frame.pixel f row' col' ^^ spriteCovers col row bs row' col') := by
  induction bs generalizing f row with
  | nil => simp [drawSprite, spriteCovers]
  | cons b bs ih =>
    have hl' : bs.length + 1 ≤ 32 := by simpa using hl
    have hp := ih (drawRow f col row b).1 (row + 1) (by omega)
    have hr8 : Frame.pixel (drawRow f col row b).1 row' col' = _ :=
      drawColumns_pixel f col row b (show 8 ≤ 64 by decide) row' col'
    rw [hr8] at hp
    rw [drawSprite, hp, spriteCovers]
    by_cases hr : frameRow row' = frameRow row
    · simp [spriteCovers_fresh col (row + 1) bs (show row < row + 1 by omega) (by omega) hr col']
    · simp [hr]

/-- The hits of the rows below a drawn row are those before it was drawn. -/
theorem spriteHits_congr {f g : Frame} (col row : Nat) (bs : List Byte)
    (h : ∀ r c, row ≤ r → r < row + bs.length → Frame.pixel f r c = Frame.pixel g r c) :
    spriteHits f col row bs = spriteHits g col row bs := by
  induction bs generalizing row with
  | nil => rfl
  | cons b bs ih =>
    have hh : columnsHit f col row b 8 = columnsHit g col row b 8 := by
      simp only [columnsHit]
      congr 1
      funext c
      rw [h row (col + c) (by omega) (by simp)]
    rw [spriteHits, spriteHits, hh, ih (row + 1)]
    intro r c h1 h2
    exact h r c (by omega) (by simp; omega)

/-- A draw collides exactly when a set bit lies over a pixel that was set before the draw (R202). -/
theorem drawSprite_hit (f : Frame) (col row : Nat) (bs : List Byte) (hl : bs.length ≤ 32) :
    (drawSprite f col row bs).2 = spriteHits f col row bs := by
  induction bs generalizing f row with
  | nil => rfl
  | cons b bs ih =>
    have hl' : bs.length + 1 ≤ 32 := by simpa using hl
    simp only [drawSprite, spriteHits, ih _ (row + 1) (show bs.length ≤ 32 by omega), drawRow,
      drawColumns_hit f col row b (show 8 ≤ 64 by decide)]
    congr 1
    refine spriteHits_congr col (row + 1) bs fun r c h1 h2 => ?_
    rw [drawColumns_pixel f col row b (show 8 ≤ 64 by decide)]
    have : frameRow r ≠ frameRow row := by
      simp only [frameRow, Config.fbHeight]; omega
    simp [this]

/-- The sprite of a Dxyn has n rows, at most 15 (R201). -/
theorem State.sprite_length (s : State) (n : Nibble) : (s.sprite n).length = n.toNat := by
  simp [State.sprite, State.memBytes]

theorem State.sprite_length_le (s : State) (n : Nibble) : (s.sprite n).length ≤ 32 := by
  rw [State.sprite_length]; have := n.isLt; omega

/-! ## The covered pixels by coordinates -/

theorem columnsCover_iff (col : Nat) (b : Byte) (k col' : Nat) : columnsCover col b k col' = true ↔
    ∃ c, c < k ∧ b.getLsbD (7 - c) = true ∧ col' % 64 = (col + c) % 64 := by
  simp only [columnsCover, spriteBit, List.any_eq_true, List.mem_range, Bool.and_eq_true, decide_eq_true_eq]
  rfl

/-- A pixel is covered when a set sprite bit lies over it, both coordinates wrapped. -/
theorem spriteCovers_iff (col row : Nat) (bs : List Byte) (row' col' : Nat) :
    spriteCovers col row bs row' col' = true ↔
      ∃ r, ∃ h : r < bs.length, ∃ c, c < 8 ∧ (bs[r]).getLsbD (7 - c) = true ∧ row' % 32 = (row + r) % 32 ∧
        col' % 64 = (col + c) % 64 := by
  induction bs generalizing row with
  | nil => simp [spriteCovers]
  | cons b bs ih =>
    simp only [spriteCovers, Bool.or_eq_true, ih, Bool.and_eq_true, decide_eq_true_eq, columnsCover_iff]
    simp only [frameRow, Config.fbHeight]
    constructor
    · rintro (⟨hr, c, h1, h2, h3⟩ | ⟨r, h, c, h1, h2, h3, h4⟩)
      · exact ⟨0, by simp, c, h1, h2, by simpa using hr, h3⟩
      · exact ⟨r + 1, by simpa using h, c, h1, by simpa using h2, by rw [h3]; congr 1; omega, h4⟩
    · rintro ⟨r, h, c, h1, h2, h3, h4⟩
      cases r with
      | zero => exact .inl ⟨by simpa using h3, c, h1, by simpa using h2, h4⟩
      | succ r => exact .inr ⟨r, by simpa using h, c, h1, by simpa using h2, by rw [h3]; congr 1; omega, h4⟩

/-- A sprite collides when a set sprite bit lies over a set pixel. -/
theorem spriteHits_iff (f : Frame) (col row : Nat) (bs : List Byte) : spriteHits f col row bs = true ↔
    ∃ r, ∃ h : r < bs.length, ∃ c, c < 8 ∧ (bs[r]).getLsbD (7 - c) = true ∧
      Frame.pixel f (row + r) (col + c) = true := by
  induction bs generalizing row with
  | nil => simp [spriteHits]
  | cons b bs ih =>
    simp only [spriteHits, Bool.or_eq_true, ih, columnsHit, List.any_eq_true, List.mem_range, Bool.and_eq_true, spriteBit]
    constructor
    · rintro (⟨c, h1, h2, h3⟩ | ⟨r, h, c, h1, h2, h3⟩)
      · exact ⟨0, by simp, c, h1, h2, by simpa using h3⟩
      · exact ⟨r + 1, by simpa using h, c, h1, by simpa using h2, by rw [← h3]; congr 1; omega⟩
    · rintro ⟨r, h, c, h1, h2, h3⟩
      cases r with
      | zero => exact .inl ⟨c, h1, by simpa using h2, by simpa using h3⟩
      | succ r => exact .inr ⟨r, by simpa using h, c, h1, by simpa using h2, by rw [← h3]; congr 1; omega⟩

end Sys2Proof.Machine
end

