-- ==== Sys2Proof/Laws/Memory.lean ====
section
/-! SUPPORT. Memory: a read after a write, a write that leaves the other addresses alone, and the canonical form, which every
operation keeps and which makes equal memories equal data (spec/20_memory.md R60, R61). -/

namespace Sys2Proof.Machine

theorem maskAddr_lt (a : Nat) : maskAddr a < 4096 := Nat.mod_lt _ (by decide)

/-! ## The list of cells -/

theorem Memory.cellAt_of_below {m : Memory} {lo : Nat} (h : Memory.wfFrom lo m = true) {a : Nat} (ha : a < lo) :
    m.cellAt a = initialByte a := by
  induction m generalizing lo with
  | nil => rfl
  | cons c m ih =>
    obtain ⟨a', b⟩ := c
    simp [Memory.wfFrom] at h
    rw [Memory.cellAt, if_neg (by omega)]
    exact ih h.2 (by omega)

/-- A read after a write in a canonical memory. -/
theorem Memory.cellAt_setCell {m : Memory} {lo : Nat} (h : Memory.wfFrom lo m = true) (a : Nat) (b : Byte) (a₂ : Nat) :
    (m.setCell a b).cellAt a₂ = if a₂ = a then b else m.cellAt a₂ := by
  induction m generalizing lo with
  | nil =>
    by_cases hb : b = initialByte a <;> by_cases ha : a₂ = a <;> simp [Memory.setCell, Memory.cellAt, hb, ha]
  | cons c m ih =>
    obtain ⟨a', b'⟩ := c
    simp [Memory.wfFrom] at h
    have below : ∀ k, k < a' + 1 → Memory.cellAt m k = initialByte k := fun k hk => Memory.cellAt_of_below h.2 hk
    have ih := ih h.2
    by_cases h1 : a < a'
    · by_cases hb : b = initialByte a
      · by_cases ha : a₂ = a
        · subst ha
          simp [Memory.setCell, Memory.cellAt, h1, hb, show a₂ ≠ a' by omega, below a₂ (by omega)]
        · simp [Memory.setCell, Memory.cellAt, h1, hb, ha]
      · by_cases ha : a₂ = a <;> simp [Memory.setCell, Memory.cellAt, h1, hb, ha]
    · by_cases h2 : a = a'
      · subst h2
        by_cases hb : b = initialByte a
        · by_cases ha : a₂ = a
          · subst ha; simp [Memory.setCell, hb, below a₂ (by omega)]
          · simp [Memory.setCell, Memory.cellAt, hb, ha]
        · by_cases ha : a₂ = a <;> simp [Memory.setCell, Memory.cellAt, hb, ha]
      · by_cases ha : a₂ = a' <;> simp [Memory.setCell, Memory.cellAt, h1, h2, ih, ha]
        intro e; omega

theorem Memory.wfFrom_mono {m : Memory} {lo lo' : Nat} (h : Memory.wfFrom lo m = true) (hl : lo' ≤ lo) :
    Memory.wfFrom lo' m = true := by
  cases m with
  | nil => rfl
  | cons c m => simp [Memory.wfFrom] at h ⊢; exact ⟨⟨⟨by omega, h.1.1.2⟩, h.1.2⟩, h.2⟩

theorem Memory.wfFrom_setCell {m : Memory} {lo : Nat} (h : Memory.wfFrom lo m = true) {a : Nat} (hlo : lo ≤ a)
    (ha : a < 4096) (b : Byte) : Memory.wfFrom lo (m.setCell a b) = true := by
  induction m generalizing lo with
  | nil => by_cases hb : b = initialByte a <;> simp [Memory.setCell, Memory.wfFrom, hb, hlo, ha]
  | cons c m ih =>
    obtain ⟨a', b'⟩ := c
    have h0 := h
    simp [Memory.wfFrom] at h
    by_cases h1 : a < a'
    · by_cases hb : b = initialByte a
      · simp only [Memory.setCell, if_pos h1, if_pos hb]; exact h0
      · simp [Memory.setCell, Memory.wfFrom, h1, hb, hlo, ha, h]
    · by_cases h2 : a = a'
      · subst h2
        by_cases hb : b = initialByte a
        · simp [Memory.setCell, hb]
          exact Memory.wfFrom_mono h.2 (by omega)
        · simp [Memory.setCell, Memory.wfFrom, hb, h]
      · simp [Memory.setCell, Memory.wfFrom, h1, h2, h, ih h.2 (by omega)]

/-- Canonical memories that read alike are equal lists. -/
theorem Memory.ext_of_wfFrom {m n : Memory} {lo : Nat} (hm : Memory.wfFrom lo m = true)
    (hn : Memory.wfFrom lo n = true) (h : ∀ a, m.cellAt a = n.cellAt a) : m = n := by
  induction m generalizing n lo with
  | nil =>
    cases n with
    | nil => rfl
    | cons c n =>
      obtain ⟨a, b⟩ := c
      simp [Memory.wfFrom] at hn
      exact absurd (by simpa [Memory.cellAt] using (h a).symm) hn.1.2
  | cons c m ih =>
    obtain ⟨a, b⟩ := c
    simp [Memory.wfFrom] at hm
    cases n with
    | nil => exact absurd (by simpa [Memory.cellAt] using h a) hm.1.2
    | cons d n =>
      obtain ⟨a', b'⟩ := d
      simp [Memory.wfFrom] at hn
      have hlt : ¬ a < a' := fun hl => hm.1.2 (by
        have := h a
        simp [Memory.cellAt, show a ≠ a' by omega, Memory.cellAt_of_below hn.2 (show a < a' + 1 by omega)] at this
        exact this)
      have hgt : ¬ a' < a := fun hl => hn.1.2 (by
        have := h a'
        simp [Memory.cellAt, show a' ≠ a by omega, Memory.cellAt_of_below hm.2 (show a' < a + 1 by omega)] at this
        exact this.symm)
      have haa : a = a' := by omega
      subst haa
      have hb : b = b' := by simpa [Memory.cellAt] using h a
      subst hb
      congr 1
      refine ih hm.2 hn.2 fun k => ?_
      by_cases hk : k = a
      · subst hk
        rw [Memory.cellAt_of_below hm.2 (by omega), Memory.cellAt_of_below hn.2 (by omega)]
      · simpa [Memory.cellAt, hk] using h k

/-! ## Masked reads and writes -/

/-- A read after a write (R60, R61): the two addresses are compared after the mask. -/
theorem Memory.read_write {m : Memory} (h : m.wf = true) (a : Nat) (b : Byte) (a₂ : Nat) :
    (m.write a b).read a₂ = if maskAddr a₂ = maskAddr a then b else m.read a₂ :=
  Memory.cellAt_setCell h _ _ _

theorem Memory.write_wf {m : Memory} (h : m.wf = true) (a : Nat) (b : Byte) : (m.write a b).wf = true :=
  Memory.wfFrom_setCell h (Nat.zero_le _) (maskAddr_lt a) b

theorem Memory.writeBytes_wf {m : Memory} (h : m.wf = true) (base : Nat) (bs : List Byte) :
    (m.writeBytes base bs).wf = true := by
  induction bs generalizing m base with
  | nil => exact h
  | cons b bs ih => exact ih (Memory.write_wf h base b) _

/-- An address outside the bytes stored reads as before. -/
theorem Memory.read_writeBytes_of_ne {m : Memory} (h : m.wf = true) (base : Nat) (bs : List Byte) (a : Nat)
    (ha : ∀ k, k < bs.length → maskAddr a ≠ maskAddr (base + k)) : (m.writeBytes base bs).read a = m.read a := by
  induction bs generalizing m base with
  | nil => rfl
  | cons b bs ih =>
    rw [Memory.writeBytes, ih (Memory.write_wf h base b), Memory.read_write h, if_neg]
    · simpa using ha 0 (by simp)
    · intro k hk
      have := ha (k + 1) (by simp; omega)
      rwa [show base + (k + 1) = base + 1 + k by omega] at this

/-- Each of at most 4096 bytes stored reads back. -/
theorem Memory.read_writeBytes {m : Memory} (h : m.wf = true) (base : Nat) (bs : List Byte) (hl : bs.length ≤ 4096)
    (k : Nat) (hk : k < bs.length) : (m.writeBytes base bs).read (base + k) = bs[k] := by
  induction bs generalizing m base k with
  | nil => simp at hk
  | cons b bs ih =>
    have hl' : bs.length + 1 ≤ 4096 := by simpa using hl
    cases k with
    | zero =>
      rw [Memory.writeBytes, Memory.read_writeBytes_of_ne (Memory.write_wf h base b)]
      · simp [Memory.read_write h]
      · intro j hj
        simp only [maskAddr, Config.memSize]
        omega
    | succ k =>
      rw [Memory.writeBytes, show base + (k + 1) = base + 1 + k by omega,
        ih (Memory.write_wf h base b) (base + 1) (by omega) k (by simpa using hk)]
      simp

/-- A read sees only the low 12 bits of the address (R61). -/
theorem Memory.read_mask (m : Memory) (a : Nat) : m.read (a % 4096) = m.read a := by
  simp [Memory.read, maskAddr]

/-- The empty list is the reset memory (R34). -/
theorem Memory.read_nil (a : Nat) : Memory.read [] a = initialByte (a % 4096) := rfl

/-- Above the font table, memory is zero after Reset (R62). -/
theorem initialByte_of_ge {a : Nat} (h : 80 ≤ a) : initialByte a = 0 := by
  have hl : FONT.length = 80 := by decide
  simp [initialByte, List.getD, hl, h]

end Sys2Proof.Machine
end

