-- ==== Sys2Proof/Laws/Exec.lean ====
section
/-! SUPPORT. What the shared operations of the machine can do, each said once: the values they compute as numbers, the bytes a
store leaves, what one execution may write, and how a step goes (spec/40_step_cycle.md). -/

namespace Sys2Proof.Machine

variable {s t : State}

/-! ## Values as numbers -/

@[simp] theorem flagByte_toNat (b : Bool) : (flagByte b).toNat = if b then 1 else 0 := by cases b <;> rfl

theorem flagByte_cases : ∀ b : Bool, flagByte b = 0 ∨ flagByte b = 1 := by decide

@[simp] theorem keyCode_toNat (b : Byte) : (keyCode b).toNat = b.toNat % 16 := by simp [keyCode]

@[simp] theorem countDown_toNat (b : Byte) : (countDown b).toNat = b.toNat - 1 := by
  have hb := b.isLt
  rw [countDown]
  split
  · rename_i h
    have : 1 ≤ b.toNat := BitVec.lt_def.mp h
    rw [BitVec.toNat_sub]; simp; omega
  · rename_i h
    have : ¬ (0 < b.toNat) := fun hp => h (BitVec.lt_def.mpr hp)
    omega

/-- The big-endian word as a number (R64). -/
theorem wordOf_toNat (hi lo : Byte) : (wordOf hi lo).toNat = 256 * hi.toNat + lo.toNat := by
  simp only [wordOf]
  rw [BitVec.toNat_append, ← Nat.shiftLeft_add_eq_or_of_lt (BitVec.isLt _)]
  omega

@[simp] theorem getV_reset (x : Nibble) : State.reset.getV x = 0 := by simp [State.getV, State.reset]

@[simp] theorem pixel_reset (row col : Nat) : Frame.pixel State.reset.fb row col = false := Frame.pixel_clear row col

/-! ## Storing and loading bytes -/

/-- Each byte stored reads back. -/
theorem State.memRead_storeBytes (h : s.mem.wf = true) (base : Nat) (bs : List Byte) (hl : bs.length ≤ 4096) (k : Nat)
    (hk : k < bs.length) : (s.storeBytes base bs).memRead (base + k) = bs[k] := by
  simpa using Memory.read_writeBytes h base bs hl k hk

/-- Every address outside the bytes stored reads as before. -/
theorem State.memRead_storeBytes_of_ne (h : s.mem.wf = true) (base : Nat) (bs : List Byte) (a : Nat)
    (ha : ∀ k, k < bs.length → a % 4096 ≠ (base + k) % 4096) : (s.storeBytes base bs).memRead a = s.memRead a :=
  Memory.read_writeBytes_of_ne h base bs a (by simpa [maskAddr] using ha)

@[simp] theorem State.regBytes_length (s : State) (k : Nat) : (s.regBytes k).length = k := by simp [State.regBytes]

@[simp] theorem State.regBytes_getElem (s : State) (k i : Nat) (h : i < (s.regBytes k).length) :
    (s.regBytes k)[i] = s.getV (BitVec.ofNat 4 i) := by simp [State.regBytes]

@[simp] theorem State.sprite_getElem (s : State) (n : Nibble) (r : Nat) (h : r < (s.sprite n).length) :
    (s.sprite n)[r] = s.memRead (s.I.toNat + r) := by simp [State.sprite, State.memBytes]

/-! ## One execution -/

/-- No execute phase stops. -/
theorem exec_next (i : Instr) (s : State) : ∃ t, exec i s = .next t := by
  cases i
  case ret => simp only [exec, execRet]; split <;> exact ⟨_, rfl⟩
  case call => simp only [exec, execCall]; split <;> exact ⟨_, rfl⟩
  all_goals exact ⟨_, rfl⟩

/-- What a return can do: pop, or latch. -/
theorem execRet_cases (h : execRet s = .next t) :
    (s.stack = [] ∧ t = s.raiseIn .ret .stackUnderflow) ∨
    ∃ top rest, s.stack = top :: rest ∧ t = (s.setStack rest).setPc top := by
  rw [execRet] at h
  split at h
  · cases h; exact .inl ⟨‹_›, rfl⟩
  · cases h; exact .inr ⟨_, _, ‹_›, rfl⟩

/-- What a call can do: push, or latch. -/
theorem execCall_cases {nnn : Imm12} (h : execCall nnn s = .next t) :
    (s.sp = s.stackDepth ∧ t = s.raiseIn (.call nnn) .stackOverflow) ∨
    (s.sp ≠ s.stackDepth ∧ t = (s.push s.pc).setPc (immAddr nnn)) := by
  rw [execCall] at h
  split at h
  · rename_i hf; cases h; exact .inl ⟨by simpa [State.stackFull] using hf, rfl⟩
  · rename_i hf; cases h; exact .inr ⟨by simpa [State.stackFull] using hf, rfl⟩

/-- A register load writes registers alone. -/
theorem execLoad_frame {x : Nibble} (h : execLoad x s = .next t) : ∃ v, t = { s with V := v } := by
  cases h; exact State.loadRegs_setV s _ _

/-- Whatever an execution does to memory is a store of bytes (R66). -/
theorem exec_mem {i : Instr} (h : exec i s = .next t) : ∃ base bs, t.mem = s.mem.writeBytes base bs := by
  cases i
  case ret => rcases execRet_cases h with ⟨-, rfl⟩ | ⟨_, _, -, rfl⟩ <;> exact ⟨0, [], rfl⟩
  case call => rcases execCall_cases h with ⟨-, rfl⟩ | ⟨-, rfl⟩ <;> exact ⟨0, [], rfl⟩
  case load => obtain ⟨v, rfl⟩ := execLoad_frame h; exact ⟨0, [], rfl⟩
  case ldB => cases h; exact ⟨_, _, rfl⟩
  case dump => cases h; exact ⟨_, _, rfl⟩
  all_goals (cases h; exact ⟨0, [], rfl⟩)

/-- An execution leaves the surroundings' order of operations alone. -/
theorem exec_order {i : Instr} (h : exec i s = .next t) :
    t.env.script = s.env.script ∧ t.env.opCount = s.env.opCount := by
  cases i
  case ret => rcases execRet_cases h with ⟨-, rfl⟩ | ⟨_, _, -, rfl⟩ <;> exact ⟨rfl, rfl⟩
  case call => rcases execCall_cases h with ⟨-, rfl⟩ | ⟨-, rfl⟩ <;> exact ⟨rfl, rfl⟩
  case load => obtain ⟨v, rfl⟩ := execLoad_frame h; exact ⟨rfl, rfl⟩
  all_goals (cases h; exact ⟨rfl, rfl⟩)

/-- Memory stays canonical in an execution. -/
theorem exec_mem_wf {i : Instr} (hm : s.mem.wf = true) (h : exec i s = .next t) : t.mem.wf = true := by
  obtain ⟨base, bs, hb⟩ := exec_mem h
  rw [hb]; exact Memory.writeBytes_wf hm base bs

/-! ## A step -/

/-- An open gate: the decoded instruction runs on the advanced state. -/
theorem stepInstruction_of_decode {i : Instr} (hg : s.gated = false) (hd : decode (s.wordAt s.pc) = some i) :
    stepInstruction s = exec i s.advance := by
  rw [stepInstruction, hg, decodeExecute, hd]; rfl

/-- An open gate and a word with no row: DecodeError. -/
theorem stepInstruction_of_illegal (hg : s.gated = false) (hd : decode (s.wordAt s.pc) = none) :
    stepInstruction s = .next (s.advance.raise .decodeError s.pc (s.wordAt s.pc)) := by
  rw [stepInstruction, hg, decodeExecute, hd]; rfl

/-- A closed gate. -/
theorem stepInstruction_of_gated (hg : s.gated = true) : stepInstruction s = .next s := by
  rw [stepInstruction, hg]; rfl

/-- Everything a `Step` can do: nothing, an execution, or a DecodeError. -/
theorem stepInstruction_cases (h : stepInstruction s = .next t) :
    (s.gated = true ∧ t = s) ∨
    (s.gated = false ∧ ∃ i, decode (s.wordAt s.pc) = some i ∧ exec i s.advance = .next t) ∨
    (s.gated = false ∧ decode (s.wordAt s.pc) = none ∧
      t = s.advance.raise .decodeError s.pc (s.wordAt s.pc)) := by
  cases hg : s.gated
  · cases hd : decode (s.wordAt s.pc) with
    | some i => rw [stepInstruction_of_decode hg hd] at h; exact .inr (.inl ⟨rfl, i, rfl, h⟩)
    | none => rw [stepInstruction_of_illegal hg hd] at h; cases h; exact .inr (.inr ⟨rfl, rfl, rfl⟩)
  · rw [stepInstruction_of_gated hg] at h; cases h; exact .inl ⟨rfl, rfl⟩

/-- No operation stops. -/
theorem perform_next (op : Operation) (s : State) : ∃ t, perform op s = .next t := by
  cases op
  case step =>
    rw [perform]
    cases hg : s.gated
    · cases hd : decode (s.wordAt s.pc) with
      | some i => rw [stepInstruction_of_decode hg hd]; exact exec_next _ _
      | none => rw [stepInstruction_of_illegal hg hd]; exact ⟨_, rfl⟩
    · rw [stepInstruction_of_gated hg]; exact ⟨_, rfl⟩
  all_goals exact ⟨_, rfl⟩

/-- What a delivery can do: nothing, or end the wait. -/
theorem State.deliverKey_cases (s : State) (k : Nibble) :
    ((s.halted = true ∨ s.paused = false) ∧ s.deliverKey k = s) ∨
    (s.halted = false ∧ s.paused = true ∧ s.deliverKey k = (s.setV s.waitX (k.setWidth 8)).endWait) := by
  cases hh : s.halted <;> cases hp : s.paused <;> simp [State.deliverKey, hh, hp]

/-- So does every operation. -/
theorem perform_order {op : Operation} (h : perform op s = .next t) :
    t.env.script = s.env.script ∧ t.env.opCount = s.env.opCount := by
  cases op
  case step =>
    rcases stepInstruction_cases h with ⟨-, rfl⟩ | ⟨-, i, -, hx⟩ | ⟨-, -, rfl⟩
    · exact ⟨rfl, rfl⟩
    · have ho := exec_order hx; exact ho
    · exact ⟨rfl, rfl⟩
  case loadProgram => cases h; rw [State.loadProgram]; split <;> exact ⟨rfl, rfl⟩
  case deliverKey k => cases h; rcases s.deliverKey_cases k with ⟨-, e⟩ | ⟨-, -, e⟩ <;> rw [e] <;> exact ⟨rfl, rfl⟩
  all_goals (cases h; exact ⟨rfl, rfl⟩)

/-- The order depends on the script and the count alone. -/
theorem State.schedule_congr (h : t.env.script = s.env.script ∧ t.env.opCount = s.env.opCount) (n : Nat) :
    t.schedule n = s.schedule n := by
  rw [State.schedule, State.schedule, h.1, h.2]

/-- Once an operation is invoked, the order is the one before it, moved on by one. -/
@[simp] theorem State.popScript_schedule (s : State) (n : Nat) : s.popScript.schedule n = s.schedule (n + 1) := by
  have : s.env.opCount + 1 + n = s.env.opCount + (n + 1) := by omega
  cases h : s.env.script <;> simp [State.schedule, State.popScript, h, this]

/-- One operation, then the rest. -/
theorem performAll_cons {op : Operation} {ops : List Operation} (h : perform op s = .next t) :
    performAll (op :: ops) s = performAll ops t := by
  rw [performAll, h]

end Sys2Proof.Machine
end

