-- ==== Sys2Proof/Laws/PerInstr.lean ====
section
/-! SUPPORT. One lemma per instruction: its encoding matches its row of the opcode map, and the row builds it back from the
word (spec/30_encoding.md R91, R95). -/

namespace Sys2Proof.Laws.EncodedRow

/-- The encoding of i is a word of some row of the opcode map, and that row reads i from it. -/
def Statement (i : Instr) : Prop := ∃ r ∈ opRows, r.hits (encode i) = true ∧ r.build (encode i) = i

/-! ## The five formats of R92 with operands -/


theorem nnn_row (p : Word) (hp : p &&& 0xF000 = p) (nnn : Imm12) :
    encNNN p nnn &&& 0xF000 = p ∧ fieldNNN (encNNN p nnn) = nnn := by
  have hbit : ∀ i, i < 12 → p.getLsbD i = false := fun i hi => by
    rw [← hp]; interval_cases i <;> simp
  constructor
  · conv_rhs => rw [← hp]
    apply BitVec.eq_of_getLsbD_eq
    intro i hi
    interval_cases i <;> simp [encNNN, place]
  · apply BitVec.eq_of_getLsbD_eq
    intro i hi
    simp only [fieldNNN, BitVec.getLsbD_extractLsb', encNNN, place, BitVec.getLsbD_or, Nat.zero_add, hbit i hi]
    interval_cases i <;> simp

theorem xkk_row (p : Word) (hp : p &&& 0xF000 = p) (x : Nibble) (kk : Byte) :
    encXKK p x kk &&& 0xF000 = p ∧ fieldX (encXKK p x kk) = x ∧ fieldKK (encXKK p x kk) = kk := by
  have hbit : ∀ i, i < 12 → p.getLsbD i = false := fun i hi => by
    rw [← hp]; interval_cases i <;> simp
  refine ⟨?_, ?_, ?_⟩
  · conv_rhs => rw [← hp]
    apply BitVec.eq_of_getLsbD_eq
    intro i hi
    interval_cases i <;> simp [encXKK, place]
  · apply BitVec.eq_of_getLsbD_eq
    intro i hi
    simp only [fieldX, BitVec.getLsbD_extractLsb', encXKK, place, BitVec.getLsbD_or, hbit (8 + i) (by omega)]
    interval_cases i <;> simp
  · apply BitVec.eq_of_getLsbD_eq
    intro i hi
    simp only [fieldKK, BitVec.getLsbD_extractLsb', encXKK, place, BitVec.getLsbD_or, Nat.zero_add, hbit i (by omega)]
    interval_cases i <;> simp

theorem xy_row (p : Word) (hp : p &&& 0xF00F = p) (x y : Nibble) :
    encXY p x y &&& 0xF00F = p ∧ fieldX (encXY p x y) = x ∧ fieldY (encXY p x y) = y := by
  have hbit : ∀ i, 4 ≤ i → i < 12 → p.getLsbD i = false := fun i h4 hi => by
    rw [← hp]; interval_cases i <;> simp
  refine ⟨?_, ?_, ?_⟩
  · conv_rhs => rw [← hp]
    apply BitVec.eq_of_getLsbD_eq
    intro i hi
    interval_cases i <;> simp [encXY, place]
  · apply BitVec.eq_of_getLsbD_eq
    intro i hi
    simp only [fieldX, BitVec.getLsbD_extractLsb', encXY, place, BitVec.getLsbD_or, hbit (8 + i) (by omega) (by omega)]
    interval_cases i <;> simp
  · apply BitVec.eq_of_getLsbD_eq
    intro i hi
    simp only [fieldY, BitVec.getLsbD_extractLsb', encXY, place, BitVec.getLsbD_or, hbit (4 + i) (by omega) (by omega)]
    interval_cases i <;> simp

theorem xyn_row (p : Word) (hp : p &&& 0xF000 = p) (x y n : Nibble) :
    encXYN p x y n &&& 0xF000 = p ∧ fieldX (encXYN p x y n) = x ∧ fieldY (encXYN p x y n) = y ∧
      fieldN (encXYN p x y n) = n := by
  have hbit : ∀ i, i < 12 → p.getLsbD i = false := fun i hi => by
    rw [← hp]; interval_cases i <;> simp
  refine ⟨?_, ?_, ?_, ?_⟩
  · conv_rhs => rw [← hp]
    apply BitVec.eq_of_getLsbD_eq
    intro i hi
    interval_cases i <;> simp [encXYN, place]
  · apply BitVec.eq_of_getLsbD_eq
    intro i hi
    simp only [fieldX, BitVec.getLsbD_extractLsb', encXYN, place, BitVec.getLsbD_or, hbit (8 + i) (by omega)]
    interval_cases i <;> simp
  · apply BitVec.eq_of_getLsbD_eq
    intro i hi
    simp only [fieldY, BitVec.getLsbD_extractLsb', encXYN, place, BitVec.getLsbD_or, hbit (4 + i) (by omega)]
    interval_cases i <;> simp
  · apply BitVec.eq_of_getLsbD_eq
    intro i hi
    simp only [fieldN, BitVec.getLsbD_extractLsb', encXYN, place, BitVec.getLsbD_or, Nat.zero_add, hbit i (by omega)]
    interval_cases i <;> simp

theorem x_row (p : Word) (hp : p &&& 0xF0FF = p) (x : Nibble) :
    encX p x &&& 0xF0FF = p ∧ fieldX (encX p x) = x := by
  have hbit : ∀ i, 8 ≤ i → i < 12 → p.getLsbD i = false := fun i h8 hi => by
    rw [← hp]; interval_cases i <;> simp
  refine ⟨?_, ?_⟩
  · conv_rhs => rw [← hp]
    apply BitVec.eq_of_getLsbD_eq
    intro i hi
    interval_cases i <;> simp [encX, place]
  · apply BitVec.eq_of_getLsbD_eq
    intro i hi
    simp only [fieldX, BitVec.getLsbD_extractLsb', encX, place, BitVec.getLsbD_or, hbit (8 + i) (by omega) (by omega)]
    interval_cases i <;> simp

/-! ## The same formats read back: a word of a row is the encoding of its own fields -/

theorem nnn_back {p w : Word} (h : w &&& 0xF000 = p) : encNNN p (fieldNNN w) = w := by
  subst h
  apply BitVec.eq_of_getLsbD_eq
  intro i hi
  interval_cases i <;> simp [encNNN, place, fieldNNN]

theorem xkk_back {p w : Word} (h : w &&& 0xF000 = p) : encXKK p (fieldX w) (fieldKK w) = w := by
  subst h
  apply BitVec.eq_of_getLsbD_eq
  intro i hi
  interval_cases i <;> simp [encXKK, place, fieldX, fieldKK]

theorem xy_back {p w : Word} (h : w &&& 0xF00F = p) : encXY p (fieldX w) (fieldY w) = w := by
  subst h
  apply BitVec.eq_of_getLsbD_eq
  intro i hi
  interval_cases i <;> simp [encXY, place, fieldX, fieldY]

theorem xyn_back {p w : Word} (h : w &&& 0xF000 = p) : encXYN p (fieldX w) (fieldY w) (fieldN w) = w := by
  subst h
  apply BitVec.eq_of_getLsbD_eq
  intro i hi
  interval_cases i <;> simp [encXYN, place, fieldX, fieldY, fieldN]

theorem x_back {p w : Word} (h : w &&& 0xF0FF = p) : encX p (fieldX w) = w := by
  subst h
  apply BitVec.eq_of_getLsbD_eq
  intro i hi
  interval_cases i <;> simp [encX, place, fieldX]

theorem fixed_back {p w : Word} (h : w &&& 0xFFFF = p) : p = w := by
  subst h
  apply BitVec.eq_of_getLsbD_eq
  intro i hi
  interval_cases i <;> simp

/-! ## One lemma per constructor -/

theorem cls : Statement .cls :=
  ⟨⟨0xFFFF, 0x00E0, fun _ => .cls⟩, by simp [opRows, opRowsLow], by decide, rfl⟩

theorem ret : Statement .ret :=
  ⟨⟨0xFFFF, 0x00EE, fun _ => .ret⟩, by simp [opRows, opRowsLow], by decide, rfl⟩

theorem jp (nnn : Imm12) : Statement (.jp nnn) := by
  obtain ⟨hw, h0⟩ := nnn_row 0x1000 (by decide) nnn
  exact ⟨⟨0xF000, 0x1000, fun w => .jp (fieldNNN w)⟩, by simp [opRows, opRowsLow], beq_iff_eq.mpr hw, by simp only [encode, h0]⟩

theorem call (nnn : Imm12) : Statement (.call nnn) := by
  obtain ⟨hw, h0⟩ := nnn_row 0x2000 (by decide) nnn
  exact ⟨⟨0xF000, 0x2000, fun w => .call (fieldNNN w)⟩, by simp [opRows, opRowsLow], beq_iff_eq.mpr hw, by simp only [encode, h0]⟩

theorem seImm (x : Nibble) (kk : Byte) : Statement (.seImm x kk) := by
  obtain ⟨hw, h0, h1⟩ := xkk_row 0x3000 (by decide) x kk
  exact ⟨⟨0xF000, 0x3000, fun w => .seImm (fieldX w) (fieldKK w)⟩, by simp [opRows, opRowsLow], beq_iff_eq.mpr hw, by simp only [encode, h0, h1]⟩

theorem sneImm (x : Nibble) (kk : Byte) : Statement (.sneImm x kk) := by
  obtain ⟨hw, h0, h1⟩ := xkk_row 0x4000 (by decide) x kk
  exact ⟨⟨0xF000, 0x4000, fun w => .sneImm (fieldX w) (fieldKK w)⟩, by simp [opRows, opRowsLow], beq_iff_eq.mpr hw, by simp only [encode, h0, h1]⟩

theorem seReg (x y : Nibble) : Statement (.seReg x y) := by
  obtain ⟨hw, h0, h1⟩ := xy_row 0x5000 (by decide) x y
  exact ⟨⟨0xF00F, 0x5000, fun w => .seReg (fieldX w) (fieldY w)⟩, by simp [opRows, opRowsLow], beq_iff_eq.mpr hw, by simp only [encode, h0, h1]⟩

theorem ldImm (x : Nibble) (kk : Byte) : Statement (.ldImm x kk) := by
  obtain ⟨hw, h0, h1⟩ := xkk_row 0x6000 (by decide) x kk
  exact ⟨⟨0xF000, 0x6000, fun w => .ldImm (fieldX w) (fieldKK w)⟩, by simp [opRows, opRowsLow], beq_iff_eq.mpr hw, by simp only [encode, h0, h1]⟩

theorem addImm (x : Nibble) (kk : Byte) : Statement (.addImm x kk) := by
  obtain ⟨hw, h0, h1⟩ := xkk_row 0x7000 (by decide) x kk
  exact ⟨⟨0xF000, 0x7000, fun w => .addImm (fieldX w) (fieldKK w)⟩, by simp [opRows, opRowsLow], beq_iff_eq.mpr hw, by simp only [encode, h0, h1]⟩

theorem ldReg (x y : Nibble) : Statement (.ldReg x y) := by
  obtain ⟨hw, h0, h1⟩ := xy_row 0x8000 (by decide) x y
  exact ⟨⟨0xF00F, 0x8000, fun w => .ldReg (fieldX w) (fieldY w)⟩, by simp [opRows, opRowsMid], beq_iff_eq.mpr hw, by simp only [encode, h0, h1]⟩

theorem orReg (x y : Nibble) : Statement (.orReg x y) := by
  obtain ⟨hw, h0, h1⟩ := xy_row 0x8001 (by decide) x y
  exact ⟨⟨0xF00F, 0x8001, fun w => .orReg (fieldX w) (fieldY w)⟩, by simp [opRows, opRowsMid], beq_iff_eq.mpr hw, by simp only [encode, h0, h1]⟩

theorem andReg (x y : Nibble) : Statement (.andReg x y) := by
  obtain ⟨hw, h0, h1⟩ := xy_row 0x8002 (by decide) x y
  exact ⟨⟨0xF00F, 0x8002, fun w => .andReg (fieldX w) (fieldY w)⟩, by simp [opRows, opRowsMid], beq_iff_eq.mpr hw, by simp only [encode, h0, h1]⟩

theorem xorReg (x y : Nibble) : Statement (.xorReg x y) := by
  obtain ⟨hw, h0, h1⟩ := xy_row 0x8003 (by decide) x y
  exact ⟨⟨0xF00F, 0x8003, fun w => .xorReg (fieldX w) (fieldY w)⟩, by simp [opRows, opRowsMid], beq_iff_eq.mpr hw, by simp only [encode, h0, h1]⟩

theorem addReg (x y : Nibble) : Statement (.addReg x y) := by
  obtain ⟨hw, h0, h1⟩ := xy_row 0x8004 (by decide) x y
  exact ⟨⟨0xF00F, 0x8004, fun w => .addReg (fieldX w) (fieldY w)⟩, by simp [opRows, opRowsMid], beq_iff_eq.mpr hw, by simp only [encode, h0, h1]⟩

theorem subReg (x y : Nibble) : Statement (.subReg x y) := by
  obtain ⟨hw, h0, h1⟩ := xy_row 0x8005 (by decide) x y
  exact ⟨⟨0xF00F, 0x8005, fun w => .subReg (fieldX w) (fieldY w)⟩, by simp [opRows, opRowsMid], beq_iff_eq.mpr hw, by simp only [encode, h0, h1]⟩

theorem shr (x y : Nibble) : Statement (.shr x y) := by
  obtain ⟨hw, h0, h1⟩ := xy_row 0x8006 (by decide) x y
  exact ⟨⟨0xF00F, 0x8006, fun w => .shr (fieldX w) (fieldY w)⟩, by simp [opRows, opRowsMid], beq_iff_eq.mpr hw, by simp only [encode, h0, h1]⟩

theorem subnReg (x y : Nibble) : Statement (.subnReg x y) := by
  obtain ⟨hw, h0, h1⟩ := xy_row 0x8007 (by decide) x y
  exact ⟨⟨0xF00F, 0x8007, fun w => .subnReg (fieldX w) (fieldY w)⟩, by simp [opRows, opRowsMid], beq_iff_eq.mpr hw, by simp only [encode, h0, h1]⟩

theorem shl (x y : Nibble) : Statement (.shl x y) := by
  obtain ⟨hw, h0, h1⟩ := xy_row 0x800E (by decide) x y
  exact ⟨⟨0xF00F, 0x800E, fun w => .shl (fieldX w) (fieldY w)⟩, by simp [opRows, opRowsMid], beq_iff_eq.mpr hw, by simp only [encode, h0, h1]⟩

theorem sneReg (x y : Nibble) : Statement (.sneReg x y) := by
  obtain ⟨hw, h0, h1⟩ := xy_row 0x9000 (by decide) x y
  exact ⟨⟨0xF00F, 0x9000, fun w => .sneReg (fieldX w) (fieldY w)⟩, by simp [opRows, opRowsMid], beq_iff_eq.mpr hw, by simp only [encode, h0, h1]⟩

theorem ldI (nnn : Imm12) : Statement (.ldI nnn) := by
  obtain ⟨hw, h0⟩ := nnn_row 0xA000 (by decide) nnn
  exact ⟨⟨0xF000, 0xA000, fun w => .ldI (fieldNNN w)⟩, by simp [opRows, opRowsMid], beq_iff_eq.mpr hw, by simp only [encode, h0]⟩

theorem jpV0 (nnn : Imm12) : Statement (.jpV0 nnn) := by
  obtain ⟨hw, h0⟩ := nnn_row 0xB000 (by decide) nnn
  exact ⟨⟨0xF000, 0xB000, fun w => .jpV0 (fieldNNN w)⟩, by simp [opRows, opRowsMid], beq_iff_eq.mpr hw, by simp only [encode, h0]⟩

theorem rnd (x : Nibble) (kk : Byte) : Statement (.rnd x kk) := by
  obtain ⟨hw, h0, h1⟩ := xkk_row 0xC000 (by decide) x kk
  exact ⟨⟨0xF000, 0xC000, fun w => .rnd (fieldX w) (fieldKK w)⟩, by simp [opRows, opRowsMid], beq_iff_eq.mpr hw, by simp only [encode, h0, h1]⟩

theorem drw (x y n : Nibble) : Statement (.drw x y n) := by
  obtain ⟨hw, h0, h1, h2⟩ := xyn_row 0xD000 (by decide) x y n
  exact ⟨⟨0xF000, 0xD000, fun w => .drw (fieldX w) (fieldY w) (fieldN w)⟩, by simp [opRows, opRowsMid], beq_iff_eq.mpr hw, by simp only [encode, h0, h1, h2]⟩

theorem skp (x : Nibble) : Statement (.skp x) := by
  obtain ⟨hw, h0⟩ := x_row 0xE09E (by decide) x
  exact ⟨⟨0xF0FF, 0xE09E, fun w => .skp (fieldX w)⟩, by simp [opRows, opRowsHigh], beq_iff_eq.mpr hw, by simp only [encode, h0]⟩

theorem sknp (x : Nibble) : Statement (.sknp x) := by
  obtain ⟨hw, h0⟩ := x_row 0xE0A1 (by decide) x
  exact ⟨⟨0xF0FF, 0xE0A1, fun w => .sknp (fieldX w)⟩, by simp [opRows, opRowsHigh], beq_iff_eq.mpr hw, by simp only [encode, h0]⟩

theorem ldVxDT (x : Nibble) : Statement (.ldVxDT x) := by
  obtain ⟨hw, h0⟩ := x_row 0xF007 (by decide) x
  exact ⟨⟨0xF0FF, 0xF007, fun w => .ldVxDT (fieldX w)⟩, by simp [opRows, opRowsHigh], beq_iff_eq.mpr hw, by simp only [encode, h0]⟩

theorem ldVxK (x : Nibble) : Statement (.ldVxK x) := by
  obtain ⟨hw, h0⟩ := x_row 0xF00A (by decide) x
  exact ⟨⟨0xF0FF, 0xF00A, fun w => .ldVxK (fieldX w)⟩, by simp [opRows, opRowsHigh], beq_iff_eq.mpr hw, by simp only [encode, h0]⟩

theorem ldDTVx (x : Nibble) : Statement (.ldDTVx x) := by
  obtain ⟨hw, h0⟩ := x_row 0xF015 (by decide) x
  exact ⟨⟨0xF0FF, 0xF015, fun w => .ldDTVx (fieldX w)⟩, by simp [opRows, opRowsHigh], beq_iff_eq.mpr hw, by simp only [encode, h0]⟩

theorem ldSTVx (x : Nibble) : Statement (.ldSTVx x) := by
  obtain ⟨hw, h0⟩ := x_row 0xF018 (by decide) x
  exact ⟨⟨0xF0FF, 0xF018, fun w => .ldSTVx (fieldX w)⟩, by simp [opRows, opRowsHigh], beq_iff_eq.mpr hw, by simp only [encode, h0]⟩

theorem addI (x : Nibble) : Statement (.addI x) := by
  obtain ⟨hw, h0⟩ := x_row 0xF01E (by decide) x
  exact ⟨⟨0xF0FF, 0xF01E, fun w => .addI (fieldX w)⟩, by simp [opRows, opRowsHigh], beq_iff_eq.mpr hw, by simp only [encode, h0]⟩

theorem ldF (x : Nibble) : Statement (.ldF x) := by
  obtain ⟨hw, h0⟩ := x_row 0xF029 (by decide) x
  exact ⟨⟨0xF0FF, 0xF029, fun w => .ldF (fieldX w)⟩, by simp [opRows, opRowsHigh], beq_iff_eq.mpr hw, by simp only [encode, h0]⟩

theorem ldB (x : Nibble) : Statement (.ldB x) := by
  obtain ⟨hw, h0⟩ := x_row 0xF033 (by decide) x
  exact ⟨⟨0xF0FF, 0xF033, fun w => .ldB (fieldX w)⟩, by simp [opRows, opRowsHigh], beq_iff_eq.mpr hw, by simp only [encode, h0]⟩

theorem dump (x : Nibble) : Statement (.dump x) := by
  obtain ⟨hw, h0⟩ := x_row 0xF055 (by decide) x
  exact ⟨⟨0xF0FF, 0xF055, fun w => .dump (fieldX w)⟩, by simp [opRows, opRowsHigh], beq_iff_eq.mpr hw, by simp only [encode, h0]⟩

theorem load (x : Nibble) : Statement (.load x) := by
  obtain ⟨hw, h0⟩ := x_row 0xF065 (by decide) x
  exact ⟨⟨0xF0FF, 0xF065, fun w => .load (fieldX w)⟩, by simp [opRows, opRowsHigh], beq_iff_eq.mpr hw, by simp only [encode, h0]⟩

end Sys2Proof.Laws.EncodedRow
end

