-- ==== Sys2Proof/Tests/Slice0.lean ====
section
/-! SUPPORT. The model's own tests. Every expected result is taken from spec/: the words from the opcode map
(spec/30_encoding.md R91, R95), the results from the vectors of spec/95_test_vectors.md, cited by their ids. The last part
shows, for every statement with hypotheses, a state and operands that meet them all. -/

namespace Sys2Proof.Tests

open Sys2Proof Sys2Proof.Machine Sys2Proof.Claims

/-! ## Well-formedness: each check refuses an ill-formed term -/

theorem test_field_refuses_wide_nibble : OperandField.fits ⟨16, 4⟩ = false := by decide
theorem test_field_takes_widest_nibble : OperandField.fits ⟨15, 4⟩ = true := by decide
theorem test_field_refuses_wide_kk : OperandField.fits ⟨256, 8⟩ = false := by decide
theorem test_field_refuses_wide_nnn : OperandField.fits ⟨4096, 12⟩ = false := by decide
theorem test_operands_refuse_one_bad_field : [OperandField.mk 3 4, OperandField.mk 256 8].all OperandField.fits = false := by
  decide
theorem test_depth_refuses_zero : stackDepthOk 0 = false := by decide
theorem test_depth_takes_one : stackDepthOk 1 = true := by decide
theorem test_image_refuses_3585_bytes : imageFits (List.replicate 3585 0xAB) = false := by
  rw [imageFits, List.length_replicate]; decide
theorem test_image_takes_3584_bytes : imageFits (List.replicate 3584 0xAB) = true := by
  rw [imageFits, List.length_replicate]; decide
theorem test_memory_refuses_reset_contents_listed : Memory.wf [(0x300, 0)] = false := by decide
theorem test_memory_refuses_falling_addresses : Memory.wf [(0x301, 1), (0x300, 2)] = false := by decide
theorem test_memory_refuses_address_4096 : Memory.wf [(4096, 1)] = false := by decide

/-! ## Decoding: one word per row of R95, its four digits written out from the pattern -/

theorem test_decode_cls : decode 0x00E0 = some .cls := by decide
theorem test_decode_ret : decode 0x00EE = some .ret := by decide
theorem test_decode_jp : decode 0x1234 = some (.jp 0x234) := by decide
theorem test_decode_call : decode 0x2ABC = some (.call 0xABC) := by decide
theorem test_decode_seImm : decode 0x3A05 = some (.seImm 0xA 0x05) := by decide
theorem test_decode_sneImm : decode 0x4B60 = some (.sneImm 0xB 0x60) := by decide
theorem test_decode_seReg : decode 0x5120 = some (.seReg 1 2) := by decide
theorem test_decode_ldImm : decode 0x6A7F = some (.ldImm 0xA 0x7F) := by decide
theorem test_decode_addImm : decode 0x7C01 = some (.addImm 0xC 0x01) := by decide
theorem test_decode_ldReg : decode 0x8340 = some (.ldReg 3 4) := by decide
theorem test_decode_orReg : decode 0x8341 = some (.orReg 3 4) := by decide
theorem test_decode_andReg : decode 0x8342 = some (.andReg 3 4) := by decide
theorem test_decode_xorReg : decode 0x8343 = some (.xorReg 3 4) := by decide
theorem test_decode_addReg : decode 0x8344 = some (.addReg 3 4) := by decide
theorem test_decode_subReg : decode 0x8345 = some (.subReg 3 4) := by decide
theorem test_decode_shr : decode 0x8346 = some (.shr 3 4) := by decide
theorem test_decode_subnReg : decode 0x8347 = some (.subnReg 3 4) := by decide
theorem test_decode_shl : decode 0x834E = some (.shl 3 4) := by decide
theorem test_decode_sneReg : decode 0x9120 = some (.sneReg 1 2) := by decide
theorem test_decode_ldI : decode 0xA123 = some (.ldI 0x123) := by decide
theorem test_decode_jpV0 : decode 0xB456 = some (.jpV0 0x456) := by decide
theorem test_decode_rnd : decode 0xC30F = some (.rnd 3 0x0F) := by decide
theorem test_decode_drw : decode 0xD125 = some (.drw 1 2 5) := by decide
theorem test_decode_skp : decode 0xE59E = some (.skp 5) := by decide
theorem test_decode_sknp : decode 0xE5A1 = some (.sknp 5) := by decide
theorem test_decode_ldVxDT : decode 0xF307 = some (.ldVxDT 3) := by decide
theorem test_decode_ldVxK : decode 0xF30A = some (.ldVxK 3) := by decide
theorem test_decode_ldDTVx : decode 0xF315 = some (.ldDTVx 3) := by decide
theorem test_decode_ldSTVx : decode 0xF318 = some (.ldSTVx 3) := by decide
theorem test_decode_addI : decode 0xF21E = some (.addI 2) := by decide
theorem test_decode_ldF : decode 0xF229 = some (.ldF 2) := by decide
theorem test_decode_ldB : decode 0xF233 = some (.ldB 2) := by decide
theorem test_decode_dump : decode 0xF255 = some (.dump 2) := by decide
theorem test_decode_load : decode 0xF265 = some (.load 2) := by decide

/-- T30 to T39. -/
theorem test_decode_refuses_illegal_words :
    [0x0000, 0x00E1, 0x0123, 0x5121, 0x9001, 0x8018, 0x801F, 0xE19F, 0xF1FF, 0xF100].map decode =
      List.replicate 10 none := by decide

theorem test_decode_refuses_one_byte : decodeBytes [0x60] = .rejected .tooShort := by decide

theorem test_decode_leaves_the_rest : decodeBytes [0x60, 0x05, 0x70, 0x03] = .decoded (.ldImm 0 5) [0x70, 0x03] := by decide

/-! ## One step each, from the reset state with some registers set -/

/-- The reset state with some registers set. -/
def withRegs (rs : List (Nibble × Byte)) : State := rs.foldl (fun s r => s.setV r.1 r.2) State.reset

/-- The state after one step that fetches the word w. -/
def after (s : State) (w : Nat) : Option State :=
  match step (s.withFetchWord 16 w) with
  | .next t => some t
  | .fault _ => none
  | .refused _ => none

/-- What f sees of the state after one step that fetches w. -/
def seen {α : Type} (s : State) (w : Nat) (f : State → α) : Option α := (after s w).map f

/-- Bytes placed in memory. -/
def withBytes (s : State) (base : Nat) (bs : List Byte) : State := s.storeBytes base bs

/-! ### Control transfer -/

/-- T1. -/
theorem test_jp : seen State.reset 0x1234 (·.pc) = some 0x0234 := by decide
/-- T4: the advanced pc is not masked. -/
theorem test_call : seen { State.reset with pc := 0x0FFE } 0x2300 (fun t => (t.stack, t.pc)) = some ([0x1000], 0x0300) := by decide
/-- T7. -/
theorem test_call_overflow : seen { State.reset with pc := 0x0202, stack := List.replicate 16 0x0204 } 0x2202
    (fun t => (t.halted, t.errCode, t.errPc, t.errOp, t.pc, t.sp)) = some (true, 3, 0x0202, 0x2202, 0x0204, 16) := by decide
/-- T5. -/
theorem test_ret : seen { State.reset with pc := 0x0300, stack := [0x0204] } 0x00EE (fun t => (t.stack, t.pc)) = some ([], 0x0204) := by
  decide
/-- T6. -/
theorem test_ret_underflow : seen { State.reset with pc := 0x0300 } 0x00EE
    (fun t => (t.halted, t.errCode, t.errPc, t.errOp, t.pc)) = some (true, 2, 0x0300, 0x00EE, 0x0302) := by decide
/-- T8, T9. -/
theorem test_seImm : [seen (withRegs [(0, 5)]) 0x3005 (·.pc), seen (withRegs [(0, 6)]) 0x3005 (·.pc)] =
    [some 0x0204, some 0x0202] := by decide
/-- T10, T11. -/
theorem test_sneImm : [seen (withRegs [(0, 5)]) 0x4005 (·.pc), seen (withRegs [(0, 6)]) 0x4005 (·.pc)] =
    [some 0x0202, some 0x0204] := by decide
/-- T12, T13. -/
theorem test_seReg : [seen (withRegs [(1, 7), (2, 7)]) 0x5120 (·.pc), seen (withRegs [(1, 7), (2, 8)]) 0x5120 (·.pc)] =
    [some 0x0204, some 0x0202] := by decide
/-- T15, T16. -/
theorem test_sneReg : [seen (withRegs [(1, 7), (2, 7)]) 0x9120 (·.pc), seen (withRegs [(1, 7), (2, 8)]) 0x9120 (·.pc)] =
    [some 0x0202, some 0x0204] := by decide
/-- T18. -/
theorem test_jpV0 : seen (withRegs [(0, 0xFF)]) 0xBFFF (·.pc) = some 0x10FE := by decide
/-- T20: the step's own advance wraps at 16 bits. -/
theorem test_advance_wraps : seen { State.reset with pc := 0xFFFE } 0x6001 (fun t => (t.getV 0, t.pc)) = some (1, 0) := by decide
/-- T21: the second byte of a word at 0xFFF is the byte at 0x000. -/
theorem test_fetch_wraps : seen { State.reset with pc := 0x0FFF } 0x607A (fun t => (t.getV 0, t.memRead 0, t.pc)) =
    some (0x7A, 0x7A, 0x1001) := by decide
/-- T32. -/
theorem test_illegal_word : seen State.reset 0x0123 (fun t => (t.halted, t.errCode, t.errPc, t.errOp, t.pc)) =
    some (true, 1, 0x0200, 0x0123, 0x0202) := by decide

/-! ### Load, add, logic, flags -/

/-- T40. -/
theorem test_ldImm : seen State.reset 0x6AFF (fun t => (t.getV 0xA, t.pc)) = some (0xFF, 0x0202) := by decide
/-- T43: no flag. -/
theorem test_addImm : seen (withRegs [(0, 0xFE), (0xF, 0x55)]) 0x7005 (fun t => (t.getV 0, t.getV 0xF)) = some (3, 0x55) := by decide
/-- T50. -/
theorem test_ldReg : seen (withRegs [(0, 1), (1, 0x7E), (0xF, 0x55)]) 0x8010 (fun t => (t.getV 0, t.getV 0xF)) =
    some (0x7E, 0x55) := by decide
/-- T51. -/
theorem test_orReg : seen (withRegs [(0, 0xF0), (1, 0x0F), (0xF, 0x55)]) 0x8011 (fun t => (t.getV 0, t.getV 0xF)) =
    some (0xFF, 0x55) := by decide
/-- T52. -/
theorem test_andReg : seen (withRegs [(0, 0xF0), (1, 0x3C), (0xF, 0x55)]) 0x8012 (fun t => (t.getV 0, t.getV 0xF)) =
    some (0x30, 0x55) := by decide
/-- T53. -/
theorem test_xorReg : seen (withRegs [(0, 0xF0), (1, 0x3C), (0xF, 0x55)]) 0x8013 (fun t => (t.getV 0, t.getV 0xF)) =
    some (0xCC, 0x55) := by decide
/-- T62. -/
theorem test_addReg : seen (withRegs [(0, 0xFF), (1, 0xFF)]) 0x8014 (fun t => (t.getV 0, t.getV 0xF)) = some (0xFE, 1) := by decide
/-- T68: the old VF is the operand. -/
theorem test_addReg_reads_VF : seen (withRegs [(0, 0x10), (0xF, 0xF5)]) 0x80F4 (fun t => (t.getV 0, t.getV 0xF)) = some (5, 1) := by
  decide
/-- T70. -/
theorem test_subReg : seen (withRegs [(0, 3), (1, 5)]) 0x8015 (fun t => (t.getV 0, t.getV 0xF)) = some (0xFE, 0) := by decide
/-- T71: equal is not greater. -/
theorem test_subReg_equal : seen (withRegs [(0, 7), (1, 7)]) 0x8015 (fun t => (t.getV 0, t.getV 0xF)) = some (0, 0) := by decide
/-- T76. -/
theorem test_shr : seen (withRegs [(0, 5), (1, 0xAA)]) 0x8016 (fun t => (t.getV 0, t.getV 0xF, t.getV 1)) = some (2, 1, 0xAA) := by
  decide
/-- T82. -/
theorem test_subnReg : seen (withRegs [(0, 3), (1, 5)]) 0x8017 (fun t => (t.getV 0, t.getV 0xF)) = some (2, 1) := by decide
/-- T85: the result replaces the flag. -/
theorem test_subnReg_VF : seen (withRegs [(0xF, 2), (1, 9)]) 0x8F17 (fun t => t.getV 0xF) = some 7 := by decide
/-- T86. -/
theorem test_shl : seen (withRegs [(0, 0x81), (1, 0xAA)]) 0x801E (fun t => (t.getV 0, t.getV 0xF, t.getV 1)) = some (2, 1, 0xAA) := by
  decide
/-- T46. -/
theorem test_rnd : seen { State.reset with env := { Environment.initial with draws := [0xA7] } } 0xC30F (·.getV 3) = some 7 := by
  decide

/-! ### Index and memory -/

/-- T101. -/
theorem test_ldI : seen State.reset 0xAFFF (·.I) = some 0x0FFF := by decide
/-- T104. -/
theorem test_addI : seen ((withRegs [(2, 0xFF)]).setI 0x0FF0) 0xF21E (·.I) = some 0x00EF := by decide
/-- T110: no nibble mask. -/
theorem test_ldF : seen (withRegs [(2, 0xFF)]) 0xF229 (·.I) = some 0x04FB := by decide
/-- T115: the stores wrap into the font. -/
theorem test_ldB : seen ((withRegs [(2, 156)]).setI 0x0FFF) 0xF233 (fun t => (t.memRead 0xFFF, t.memRead 0, t.memRead 1)) =
    some (1, 5, 6) := by decide
/-- T116. -/
theorem test_dump : seen ((withRegs [(0, 0x11), (1, 0x22), (2, 0x33), (3, 0x44)]).setI 0x0400) 0xF255
    (fun t => (t.memBytes 0x400 4, t.I)) = some ([0x11, 0x22, 0x33, 0], 0x0400) := by decide
/-- T120. -/
theorem test_load : seen (withBytes ((withRegs [(3, 0x77)]).setI 0x0400) 0x400 [0xDE, 0xAD, 0xBE, 0xEF]) 0xF265
    (fun t => (t.regBytes 4, t.I)) = some ([0xDE, 0xAD, 0xBE, 0x77], 0x0400) := by decide
/-- T121: the loads wrap to the first font byte. -/
theorem test_load_wraps : seen (withBytes (State.reset.setI 0x0FFF) 0xFFF [0xAB]) 0xF165 (·.regBytes 2) =
    some [0xAB, 0xF0] := by decide

/-! ### Display -/

/-- T130. -/
theorem test_cls : seen ((withRegs [(0xF, 0x55)]).setFb ((Frame.clear.flip 0 0).flip 31 63)) 0x00E0
    (fun t => (t.fb.pixel 0 0, t.fb.pixel 31 63, t.getV 0xF)) = some (false, false, 0x55) := by decide
/-- T134: both coordinates wrap, within the sprite too. -/
theorem test_drw_wraps : seen (withBytes ((withRegs [(0, 0xFF), (1, 0xFF)]).setI 0x300) 0x300 [0xC0]) 0xD011
    (fun t => (t.fb.pixel 31 63, t.fb.pixel 31 0, t.getV 0xF)) = some (true, true, 0) := by decide
/-- T136: a collision in the first row stays. -/
theorem test_drw_collides : seen ((withBytes (State.reset.setI 0x300) 0x300 [0x80, 0x80]).setFb (Frame.clear.flip 0 0)) 0xD012
    (fun t => (t.fb.pixel 0 0, t.fb.pixel 1 0, t.getV 0xF)) = some (false, true, 1) := by decide

/-! ### Keys and timers -/

/-- The reset state with V5 holding b and the keys at this level. -/
def withKeys (b : Byte) (keys : BitVec 16) : State :=
  { withRegs [(5, b)] with env := { Environment.initial with keySamples := [keys] } }

/-- T154, T151. -/
theorem test_skp : [seen (withKeys 0x1A 0x0400) 0xE59E (·.pc), seen (withKeys 0x0A 0) 0xE59E (·.pc)] = [some 0x0204, some 0x0202] := by
  decide
/-- T155, T153. -/
theorem test_sknp : [seen (withKeys 0xF3 0x0008) 0xE5A1 (·.pc), seen (withKeys 0x0A 0) 0xE5A1 (·.pc)] = [some 0x0202, some 0x0204] := by
  decide
/-- T156. -/
theorem test_ldVxDT : seen (State.reset.setDT 0x3C) 0xF307 (·.getV 3) = some 0x3C := by decide
/-- T159. -/
theorem test_ldVxK : seen (withRegs [(3, 0x77)]) 0xF30A (fun t => (t.paused, t.waitX, t.pc, t.getV 3)) =
    some (true, 3, 0x0202, 0x77) := by decide
/-- T157. -/
theorem test_ldDTVx : seen (withRegs [(3, 0x3C)]) 0xF315 (·.DT) = some 0x3C := by decide
/-- T158. -/
theorem test_ldSTVx : seen (withRegs [(3, 5)]) 0xF318 (fun t => (t.ST, t.soundOn)) = some (5, true) := by decide

/-! ### The other operations -/

/-- T160, the first two ticks. -/
theorem test_timerTick : performAll [.timerTick, .timerTick] ((State.reset.setDT 2).setST 1) = .next State.reset := rfl
/-- T164. -/
theorem test_deliverKey : (State.reset.beginWait 0xF).deliverKey 0xF = ((withRegs [(0xF, 0x0F)]).beginWait 0xF).endWait := by decide
/-- T170. -/
theorem test_reset : (withBytes { withRegs [(3, 9)] with halted := true, errCode := 1 } 0 [0]).resetCore = State.reset := by decide
/-- T172. -/
theorem test_loadProgram : (State.reset.loadProgram [0xAB]).memBytes 0x1FF 3 = [0, 0xAB, 0] := by decide
/-- T174. -/
theorem test_loadProgram_oversize : State.reset.loadProgram (List.replicate 3585 0xAB) =
    { State.reset with halted := true, errCode := 4 } := by
  rw [State.loadProgram, if_pos (by rw [List.length_replicate]; decide)]; decide
/-- The script names the operation (R251). -/
theorem test_script : step { State.reset.setDT 2 with env := { Environment.initial with script := [.timerTick] } } =
    .next { State.reset.setDT 1 with env := { Environment.initial with opCount := 1 } } := rfl

/-! ## Witnesses: states and operands that meet the hypotheses -/

/-- The reset state with the word w at `pc`. -/
def at200 (w : Nat) : State := State.reset.withFetchWord 16 w

theorem witness_StepRunsDecodedInstruction :
    (at200 0x6A7F).nextOp = .step ∧ (at200 0x6A7F).halted = false ∧ (at200 0x6A7F).paused = false ∧
    decode (wordOf ((at200 0x6A7F).memRead (at200 0x6A7F).pc.toNat) ((at200 0x6A7F).memRead ((at200 0x6A7F).pc.toNat + 1))) =
      some (.ldImm 0xA 0x7F) := by decide

theorem witness_EncodeOfDecodeIsIdentity : decode 0x8125 = some (.subReg 1 2) := by decide

/-- One word under each clause of R96's table, and one under none. -/
theorem witness_IllegalWord_0 : IllegalWord 0x00E1 := by simp only [IllegalWord]; decide
theorem witness_IllegalWord_5 : IllegalWord 0x5121 := by simp only [IllegalWord]; decide
theorem witness_IllegalWord_8 : IllegalWord 0x801F := by simp only [IllegalWord]; decide
theorem witness_IllegalWord_9 : IllegalWord 0x9001 := by simp only [IllegalWord]; decide
theorem witness_IllegalWord_E : IllegalWord 0xE19F := by simp only [IllegalWord]; decide
theorem witness_IllegalWord_F : IllegalWord 0xF1FF := by simp only [IllegalWord]; decide
theorem witness_not_IllegalWord : ¬ IllegalWord 0xF165 := by simp only [IllegalWord]; decide

theorem witness_IllegalWordLatchesDecodeError :
    State.reset.gated = false ∧ IllegalWord (State.reset.wordAt State.reset.pc) := by simp only [IllegalWord]; decide

theorem witness_GatedStepsChangeNothing :
    (State.reset.beginWait 3).paused = true ∧ ({ State.reset with halted := true } : State).halted = true := by decide

/-- Each of the three errors is reached by a step. -/
theorem witness_OnlyThreeErrorsInAStep_decode : ∃ t, State.reset.halted = false ∧ perform .step State.reset = .next t ∧
    t.halted = true := ⟨_, rfl, rfl, rfl⟩
theorem witness_OnlyThreeErrorsInAStep_ret : ∃ t, (at200 0x00EE).halted = false ∧ perform .step (at200 0x00EE) = .next t ∧
    t.halted = true ∧ t.errCode = 2 := ⟨_, rfl, rfl, rfl, rfl⟩
theorem witness_OnlyThreeErrorsInAStep_call : ∃ t,
    perform .step { at200 0x2202 with stack := List.replicate 16 0x204 } = .next t ∧ t.halted = true ∧ t.errCode = 3 :=
  ⟨_, rfl, rfl, rfl⟩

theorem witness_EveryStepKeepsTheInvariants : ∃ t, (at200 0x1200).Inv ∧ step (at200 0x1200) = .next t :=
  ⟨_, ⟨by decide, by decide, by decide, by decide, by decide⟩, rfl⟩

theorem witness_SessionIsNeverPausedAndHalted :
    ∀ op ∈ [Operation.step, .timerTick, .deliverKey 5], op.inSession = true := by decide

/-- A step that begins a wait, and a step that latches an error. -/
theorem witness_SessionOperationsKeepNotPausedAndHalted :
    (∃ t, Operation.step.inSession = true ∧ (at200 0xF30A).notPausedAndHalted = true ∧
      perform .step (at200 0xF30A) = .next t ∧ t.paused = true) ∧
    (∃ t, State.reset.notPausedAndHalted = true ∧ perform .step State.reset = .next t ∧ t.halted = true) :=
  ⟨⟨_, rfl, rfl, rfl, rfl⟩, ⟨_, rfl, rfl, rfl⟩⟩

/-- The last scripted operation, and the first one after it. -/
theorem witness_StepsFollowTheOrderOfOperations : (∃ t, step (at200 0x1200) = .next t) ∧ 0 < [Operation.timerTick].length ∧
    ({ State.reset with env := { Environment.initial with script := [.timerTick] } } : State).schedule 1 =
      Config.freeOperation 1 := ⟨⟨_, rfl⟩, by decide, rfl⟩

theorem witness_OnlyResetClearsTheLatch :
    ({ State.reset with halted := true, errCode := 4 } : State).halted = true ∧ Operation.deliverKey 5 ≠ .reset := by decide

/-- The boundary of R282, on both sides. -/
theorem witness_FittingImageIsCopied : State.reset.mem.wf = true ∧ (List.replicate 3584 (0xAB : Byte)).length ≤ 3584 :=
  ⟨rfl, by rw [List.length_replicate]⟩
theorem witness_OversizeImageIsRejected : 3584 < (List.replicate 3585 (0xAB : Byte)).length := by
  rw [List.length_replicate]; decide
theorem witness_BootGivesTheLaunchPremises : ([0x60, 0x05, 0x70, 0x03] : List Byte).length ≤ 3584 := by decide

theorem witness_KeyDeliveryEndsOnlyAWait :
    ((State.reset.beginWait 0xF).halted = false ∧ (State.reset.beginWait 0xF).paused = true) ∧ State.reset.paused = false := by decide

theorem witness_ReturnPopsOrUnderflows :
    (State.reset.push 0x0204).stack = 0x0204 :: [] ∧ State.reset.stack = [] := by decide

/-- One below the depth, and at it. -/
theorem witness_CallPushesOrOverflows :
    (State.reset.setStack (List.replicate 15 0x204)).sp ≠ State.reset.stackDepth ∧
    (State.reset.setStack (List.replicate 16 0x204)).sp = State.reset.stackDepth := by decide

/-- One word per row that a statement quantifies over with `HasRow`. -/
theorem witness_HasRow : [((0x1234 : Word), (0xF000 : Word), (0x1000 : Word)), (0x3005, 0xF000, 0x3000), (0x4FFF, 0xF000, 0x4000),
    (0x5120, 0xF00F, 0x5000), (0x9FF0, 0xF00F, 0x9000), (0xB300, 0xF000, 0xB000), (0x6A7F, 0xF000, 0x6000),
    (0x7F01, 0xF000, 0x7000), (0xAFFF, 0xF000, 0xA000), (0xF21E, 0xF0FF, 0xF01E), (0xFF29, 0xF0FF, 0xF029),
    (0xF033, 0xF0FF, 0xF033), (0x00E0, 0xFFFF, 0x00E0), (0x00EE, 0xFFFF, 0x00EE), (0x2ABC, 0xF000, 0x2000),
    (0x8340, 0xF00F, 0x8000), (0x8341, 0xF00F, 0x8001), (0x8342, 0xF00F, 0x8002), (0x8343, 0xF00F, 0x8003),
    (0x8344, 0xF00F, 0x8004), (0x8345, 0xF00F, 0x8005), (0x8346, 0xF00F, 0x8006), (0x8347, 0xF00F, 0x8007),
    (0x834E, 0xF00F, 0x800E), (0xC30F, 0xF000, 0xC000), (0xD125, 0xF000, 0xD000), (0xE59E, 0xF0FF, 0xE09E),
    (0xE5A1, 0xF0FF, 0xE0A1), (0xF307, 0xF0FF, 0xF007), (0xF30A, 0xF0FF, 0xF00A), (0xF315, 0xF0FF, 0xF015),
    (0xF318, 0xF0FF, 0xF018), (0xF255, 0xF0FF, 0xF055), (0xF265, 0xF0FF, 0xF065)].all (fun r => r.1 &&& r.2.1 == r.2.2) = true := by decide

theorem witness_PcAfterEachInstruction : ∃ t, exec (.skp 5) (withKeys 0x1A 0x0400) = .next t ∧ t.pc = 0x202 := ⟨_, rfl, by decide⟩

theorem witness_AluResultsAndFlags : (0xE : Nibble) ≠ 0xF := by decide

/-- Both clauses: a flag-producing instruction, and another, neither with VF as its destination. -/
theorem witness_FlagIsWrittenOnlyAsNamed : ∃ t u, exec (.addReg 0xE 0xF) (withRegs [(0xE, 0xFF), (0xF, 2)]) = .next t ∧
    isDestination 0xF (.addReg 0xE 0xF) = false ∧ producesFlag (.addReg 0xE 0xF) = true ∧
    exec (.load 0xE) (withRegs [(0xF, 2)]) = .next u ∧ isDestination 0xF (.load 0xE) = false ∧ producesFlag (.load 0xE) = false :=
  ⟨_, _, rfl, rfl, rfl, rfl, rfl, rfl⟩

theorem witness_memory_statements : (State.reset.setI 0x0FFF).mem.wf = true := by decide

theorem witness_DumpThenLoadRestoresTheRegisters : ∃ t u,
    (withRegs [(0, 0x11), (2, 0x33)]).mem.wf = true ∧ exec (.dump 2) (withRegs [(0, 0x11), (2, 0x33)]) = .next t ∧
    exec (.load 2) { t with V := Vector.replicate 16 0 } = .next u ∧ (2 : Nibble).toNat ≤ (2 : Nibble).toNat :=
  ⟨_, _, rfl, rfl, rfl, by decide⟩

theorem witness_StoreIsSeenByTheFetch : ∃ t, ((withRegs [(0, 0x12), (1, 0x20)]).setI 0x0FFF).mem.wf = true ∧
    1 ≤ (1 : Nibble).toNat ∧ exec (.dump 1) ((withRegs [(0, 0x12), (1, 0x20)]).setI 0x0FFF) = .next t := ⟨_, rfl, by decide, rfl⟩

/-- Both branches: an alias of the address written, and its neighbour. -/
theorem witness_ReadAfterWriteIsMasked : State.reset.mem.wf = true ∧ 0x1300 % 4096 = 0x300 % 4096 ∧ 0x1301 % 4096 ≠ 0x300 % 4096 := by
  decide

/-- A draw that collides, one that does not, and a pixel under no sprite position. -/
theorem witness_DrawIsOneParallelUpdate :
    Collides (State.reset.setFb (Frame.clear.flip 0 0)) 0 1 1 ∧ ¬ Collides State.reset 0 1 0xF ∧
    (∀ r c, r < (1 : Nibble).toNat → c < 8 →
      ¬ (1 % 32 = ((State.reset.getV 1).toNat + r) % 32 ∧ 0 % 64 = ((State.reset.getV 0).toNat + c) % 64)) := by
  refine ⟨⟨0, 0, by decide, by decide, by decide, by decide⟩, ?_, ?_⟩
  · rintro ⟨r, c, -, -, -, h⟩; simp at h
  · intro r c hr _
    have : r = 0 := by simpa using hr
    subst this; simp

/-- Two draws of glyph 0 on the blank screen. -/
theorem witness_DrawingTwiceRestoresTheScreen : ∃ t u, (0 : Nibble) ≠ 0xF ∧ (1 : Nibble) ≠ 0xF ∧
    exec (.drw 0 1 5) State.reset = .next t ∧ exec (.drw 0 1 5) t = .next u ∧
    (∀ row col, Frame.pixel State.reset.fb row col = false) ∧
    ∃ r, r < (5 : Nibble).toNat ∧ State.reset.memRead (State.reset.I.toNat + r) ≠ 0 :=
  ⟨_, _, by decide, by decide, rfl, rfl, pixel_reset, 0, by decide, by decide⟩

theorem witness_WaitForKeyLastsUntilADelivery : State.reset.halted = false ∧
    ∀ op ∈ [Operation.step, .timerTick, .step], op = .step ∨ op = .timerTick := by decide

theorem witness_ToneLastsAsManyTicksAsSet : ∃ t, exec (.ldSTVx 3) (withRegs [(3, 5)]) = .next t ∧ t.ST = 5 := ⟨_, rfl, by decide⟩

/-- For each clause an instruction that does change that piece of state. -/
theorem witness_StateChangesOnlyByItsInstructions_values :
    (∃ t, exec (.ldDTVx 3) (withRegs [(3, 5)]) = .next t ∧ t.DT ≠ State.reset.DT) ∧
    (∃ t, exec (.ldSTVx 3) (withRegs [(3, 5)]) = .next t ∧ t.ST ≠ State.reset.ST) ∧
    (∃ t, exec (.drw 0 1 5) State.reset = .next t ∧ t.fb ≠ State.reset.fb) ∧
    (∃ t, exec (.call 0x300) State.reset = .next t ∧ t.stack ≠ State.reset.stack) ∧
    (∃ t, exec (.ldI 0x300) State.reset = .next t ∧ t.I ≠ State.reset.I) ∧
    (∃ t, exec (.dump 0) State.reset = .next t ∧ t.memRead 0 ≠ State.reset.memRead 0) :=
  ⟨⟨_, rfl, by decide⟩, ⟨_, rfl, by decide⟩, ⟨_, rfl, by decide⟩, ⟨_, rfl, by decide⟩, ⟨_, rfl, by decide⟩, ⟨_, rfl, by decide⟩⟩

theorem witness_StateChangesOnlyByItsInstructions_control :
    (∃ t, exec (.ldVxK 3) State.reset = .next t ∧ t.paused ≠ State.reset.paused) ∧
    (∃ t, exec .ret State.reset = .next t ∧ t.halted ≠ State.reset.halted) ∧
    (∃ t, exec (.skp 3) State.reset = .next t ∧ t.env ≠ State.reset.env) :=
  ⟨⟨_, rfl, by decide⟩, ⟨_, rfl, by decide⟩, ⟨_, rfl, by decide⟩⟩

/-- Register 0 under a flag-producing instruction, and VF under another. -/
theorem witness_RegistersChangeOnlyAsDestinations :
    (∃ t, exec (.drw 0 1 5) State.reset = .next t ∧ isDestination 0 (.drw 0 1 5) = false ∧ (0 : Nibble) ≠ 0xF) ∧
    (∃ t, exec (.orReg 0 1) State.reset = .next t ∧ isDestination 0xF (.orReg 0 1) = false ∧ producesFlag (.orReg 0 1) = false) :=
  ⟨⟨_, rfl, rfl, by decide⟩, ⟨_, rfl, rfl, rfl⟩⟩

theorem witness_NoInstructionReadsTheSoundTimer : ∃ t, exec (.dump 0xF) (State.reset.setST 9) = .next t ∧
    ∀ x, Instr.dump 0xF ≠ .ldSTVx x := ⟨_, rfl, by decide⟩

/-- T2. -/
theorem witness_SelfJumpIsAFixedPoint : (at200 0x1200).idle = true := by decide

end Sys2Proof.Tests
end

section
/-! The jump and the two immediate skips (spec/41_flow.md R141, R143, R144). -/

namespace Sys2Proof.Machine

open Sys2Proof.Claims

/-! ## Rows of the opcode map as statements about words (R94, R95) -/

/-- A row of the opcode map decides every word that matches it, whatever rows stand before it. -/
theorem hasRow_of_mem {mask pattern : Word} {build : Word → Instr} (hr : ⟨mask, pattern, build⟩ ∈ opRows) :
    HasRow mask pattern build :=
  fun _ hw => decode_of_row hr (beq_iff_eq.mpr hw)

theorem hasRow_jp : HasRow 0xF000 0x1000 fun w => .jp (w.extractLsb' 0 12) :=
  hasRow_of_mem (by simp [opRows, opRowsLow, fieldNNN])

theorem hasRow_seImm : HasRow 0xF000 0x3000 fun w => .seImm (w.extractLsb' 8 4) (w.extractLsb' 0 8) :=
  hasRow_of_mem (by simp [opRows, opRowsLow, fieldX, fieldKK])

theorem hasRow_sneImm : HasRow 0xF000 0x4000 fun w => .sneImm (w.extractLsb' 8 4) (w.extractLsb' 0 8) :=
  hasRow_of_mem (by simp [opRows, opRowsLow, fieldX, fieldKK])

/-! ## The execute phase of a jump and of a skip, as an update of `pc` -/

theorem exec_jp (nnn : Imm12) (s : State) : exec (.jp nnn) s = .next (s.setPc (nnn.setWidth 16)) := rfl

theorem exec_seImm (x : Nibble) (kk : Byte) (s : State) :
    exec (.seImm x kk) s = .next (s.skipIf (s.getV x == kk)) := rfl

theorem exec_sneImm (x : Nibble) (kk : Byte) (s : State) :
    exec (.sneImm x kk) s = .next (s.skipIf (s.getV x != kk)) := rfl

/-- The skip of R25 with its condition as a proposition: two cases, and only `pc` is written. -/
theorem State.skipIf_eq_update {c : Bool} {P : Prop} [Decidable P] (s : State) (h : c = true ↔ P) :
    s.skipIf c = { s with pc := if P then s.pc + 2 else s.pc } := by
  rw [State.skipIf_eq, if_congr h rfl rfl]
  rfl

/-! ## The obligations -/

/-- Settles O21: the target replaces the advanced `pc`, in one update of the state. -/
theorem jumpSetsPc : Obligations.JumpSetsPc :=
  ⟨hasRow_jp, exec_jp⟩

/-- Settles O24: both skips are `State.skipIf`, on the test for equality and on its negation. -/
theorem immediateSkips : Obligations.ImmediateSkips := by
  refine ⟨hasRow_seImm, hasRow_sneImm, fun x kk s => ⟨?_, ?_⟩⟩
  · rw [exec_seImm, State.skipIf_eq_update s beq_iff_eq]
  · rw [exec_sneImm, State.skipIf_eq_update s bne_iff_ne]

end Sys2Proof.Machine
end

section
/-! The immediate load and add (spec/42_alu.md R160, R161). -/

namespace Sys2Proof.Machine

open Sys2Proof.Claims

theorem hasRow_ldImm : HasRow 0xF000 0x6000 fun w => .ldImm (w.extractLsb' 8 4) (w.extractLsb' 0 8) :=
  hasRow_of_mem (by simp [opRows, opRowsLow, fieldX, fieldKK])

theorem hasRow_addImm : HasRow 0xF000 0x7000 fun w => .addImm (w.extractLsb' 8 4) (w.extractLsb' 0 8) :=
  hasRow_of_mem (by simp [opRows, opRowsLow, fieldX, fieldKK])

theorem exec_ldImm (x : Nibble) (kk : Byte) (s : State) : exec (.ldImm x kk) s = .next (s.setV x kk) := rfl

theorem exec_addImm (x : Nibble) (kk : Byte) (s : State) :
    exec (.addImm x kk) s = .next (s.setV x (s.getV x + kk)) := rfl

/-- One register write is the whole effect that `WritesReg` allows: the value, the other registers, the rest of the state. -/
theorem State.writesReg_setV (s : State) (x : Nibble) (b : Byte) : WritesReg s (s.setV x b) x b :=
  ⟨s.setV_getV_same x b, fun _ hy => s.setV_getV_of_ne hy b, rfl⟩

/-- Settles O28: both write Vx alone by one `State.setV`, and a sum of bytes is the sum modulo 256. -/
theorem immediateLoadAndAdd : Obligations.ImmediateLoadAndAdd := by
  refine ⟨hasRow_ldImm, hasRow_addImm, fun x kk s => ⟨?_, ?_⟩⟩
  · exact ⟨_, exec_ldImm x kk s, s.writesReg_setV x kk⟩
  · obtain ⟨hx, hother, hrest⟩ := s.writesReg_setV x (s.getV x + kk)
    exact ⟨_, exec_addImm x kk s, by rw [hx, BitVec.toNat_add], hother, hrest⟩

end Sys2Proof.Machine
end

section
/-! The three instructions that set the index register (spec/43_index_memory.md R180 to R182). -/

namespace Sys2Proof.Machine

open Sys2Proof.Claims

theorem hasRow_ldI : HasRow 0xF000 0xA000 fun w => .ldI (w.extractLsb' 0 12) :=
  hasRow_of_mem (by simp [opRows, opRowsMid, fieldNNN])

theorem hasRow_addI : HasRow 0xF0FF 0xF01E fun w => .addI (w.extractLsb' 8 4) :=
  hasRow_of_mem (by simp [opRows, opRowsHigh, fieldX])

theorem hasRow_ldF : HasRow 0xF0FF 0xF029 fun w => .ldF (w.extractLsb' 8 4) :=
  hasRow_of_mem (by simp [opRows, opRowsHigh, fieldX])

theorem exec_ldI (nnn : Imm12) (s : State) : exec (.ldI nnn) s = .next (s.setI (nnn.setWidth 16)) := rfl

theorem exec_addI (x : Nibble) (s : State) :
    exec (.addI x) s = .next (s.setI ((s.I + byteAddr (s.getV x)) &&& 0x0FFF)) := rfl

theorem exec_ldF (x : Nibble) (s : State) : exec (.ldF x) s = .next (s.setI (byteAddr (s.getV x) * 5)) := rfl

/-- Writing the old index back undoes an index write: `I` is all that it changes. -/
theorem State.setI_frame (s : State) (w : Word) : { s.setI w with I := s.I } = s := rfl

theorem toNat_byteAddr (b : Byte) : (byteAddr b).toNat = b.toNat :=
  BitVec.toNat_setWidth_of_le (by decide)

/-- R181: 4096 divides 65536, so masking the 16-bit sum loses nothing of the exact sum modulo 4096. -/
theorem toNat_add_byteAddr_mask (w : Word) (b : Byte) :
    ((w + byteAddr b) &&& 0x0FFF).toNat = (w.toNat + b.toNat) % 4096 := by
  have hmask : ∀ v : Word, (v &&& 0x0FFF).toNat = v.toNat % 4096 := fun v => Nat.and_two_pow_sub_one_eq_mod v.toNat 12
  rw [hmask, BitVec.toNat_add, toNat_byteAddr, Nat.mod_mod_of_dvd _ (by decide)]

/-- R182: 255 times 5 fits in 16 bits, so the product is exact. -/
theorem toNat_byteAddr_mul_five (b : Byte) : (byteAddr b * 5).toNat = b.toNat * 5 := by
  have hb : b.toNat < 256 := b.isLt
  rw [BitVec.toNat_mul, toNat_byteAddr]
  exact Nat.mod_eq_of_lt (show b.toNat * 5 < 65536 by omega)

/-- Settles O34: each of the three is one `State.setI`, and the two computed values are exact as natural numbers. -/
theorem indexLoads : Obligations.IndexLoads :=
  ⟨hasRow_ldI, hasRow_addI, hasRow_ldF, exec_ldI,
    fun x s => ⟨_, exec_addI x s, toNat_add_byteAddr_mask s.I (s.getV x), s.setI_frame _⟩,
    fun x s => ⟨_, exec_ldF x s, toNat_byteAddr_mul_five (s.getV x), s.setI_frame _⟩⟩

end Sys2Proof.Machine
end

section
/-! Clearing the display (spec/44_display.md R200). -/

namespace Sys2Proof.Machine

open Sys2Proof.Claims

theorem hasRow_cls : HasRow 0xFFFF 0x00E0 fun _ => .cls :=
  hasRow_of_mem (by simp [opRows, opRowsLow])

theorem exec_cls (s : State) : exec .cls s = .next (s.setFb Frame.clear) := rfl

/-- Putting the old frame back undoes a frame write: the framebuffer is all that it changes. -/
theorem State.setFb_frame (s : State) (f : Frame) : { s.setFb f with fb := s.fb } = s := rfl

/-- Settles O41: the next state is one `State.setFb` of the clear frame, every pixel of which is off. -/
theorem clearDisplayClearsEveryPixel : Obligations.ClearDisplayClearsEveryPixel :=
  ⟨hasRow_cls, fun s => ⟨_, exec_cls s, Frame.pixel_clear, s.setFb_frame _⟩⟩

end Sys2Proof.Machine
end

section
/-! The decoder and the encoder are inverse to each other, and the words without an instruction
(spec/30_encoding.md R91 to R96). -/

namespace Sys2Proof

open Sys2Proof.Laws Sys2Proof.Claims

/-! ## Both ways round -/

/-- Every instruction's encoding stands in a row that reads the instruction back. -/
theorem encodedRow_statement (i : Instr) : EncodedRow.Statement i := by
  cases i
  case cls => exact EncodedRow.cls
  case ret => exact EncodedRow.ret
  case jp nnn => exact EncodedRow.jp nnn
  case call nnn => exact EncodedRow.call nnn
  case seImm x kk => exact EncodedRow.seImm x kk
  case sneImm x kk => exact EncodedRow.sneImm x kk
  case seReg x y => exact EncodedRow.seReg x y
  case ldImm x kk => exact EncodedRow.ldImm x kk
  case addImm x kk => exact EncodedRow.addImm x kk
  case ldReg x y => exact EncodedRow.ldReg x y
  case orReg x y => exact EncodedRow.orReg x y
  case andReg x y => exact EncodedRow.andReg x y
  case xorReg x y => exact EncodedRow.xorReg x y
  case addReg x y => exact EncodedRow.addReg x y
  case subReg x y => exact EncodedRow.subReg x y
  case shr x y => exact EncodedRow.shr x y
  case subnReg x y => exact EncodedRow.subnReg x y
  case shl x y => exact EncodedRow.shl x y
  case sneReg x y => exact EncodedRow.sneReg x y
  case ldI nnn => exact EncodedRow.ldI nnn
  case jpV0 nnn => exact EncodedRow.jpV0 nnn
  case rnd x kk => exact EncodedRow.rnd x kk
  case drw x y n => exact EncodedRow.drw x y n
  case skp x => exact EncodedRow.skp x
  case sknp x => exact EncodedRow.sknp x
  case ldVxDT x => exact EncodedRow.ldVxDT x
  case ldVxK x => exact EncodedRow.ldVxK x
  case ldDTVx x => exact EncodedRow.ldDTVx x
  case ldSTVx x => exact EncodedRow.ldSTVx x
  case addI x => exact EncodedRow.addI x
  case ldF x => exact EncodedRow.ldF x
  case ldB x => exact EncodedRow.ldB x
  case dump x => exact EncodedRow.dump x
  case load x => exact EncodedRow.load x

/-- Settles O3: the row in which the encoding stands is the one that decides its decoding. -/
theorem decodeOfEncodeIsIdentity : Obligations.DecodeOfEncodeIsIdentity := by
  intro i
  obtain ⟨r, hr, hits, hbuild⟩ := encodedRow_statement i
  rw [decode_of_row hr hits, hbuild]

theorem encode_build_low (w : Word) : ∀ r ∈ opRowsLow, r.hits w = true → encode (r.build w) = w := by
  simp only [opRowsLow, List.forall_mem_cons, OpRow.hits, beq_iff_eq]
  open EncodedRow in
  exact ⟨fixed_back, fixed_back, nnn_back, nnn_back, xkk_back, xkk_back, xy_back, xkk_back, xkk_back, by simp⟩

theorem encode_build_mid (w : Word) : ∀ r ∈ opRowsMid, r.hits w = true → encode (r.build w) = w := by
  simp only [opRowsMid, List.forall_mem_cons, OpRow.hits, beq_iff_eq]
  open EncodedRow in
  exact ⟨xy_back, xy_back, xy_back, xy_back, xy_back, xy_back, xy_back, xy_back, xy_back, xy_back, nnn_back, nnn_back,
    xkk_back, xyn_back, by simp⟩

theorem encode_build_high (w : Word) : ∀ r ∈ opRowsHigh, r.hits w = true → encode (r.build w) = w := by
  simp only [opRowsHigh, List.forall_mem_cons, OpRow.hits, beq_iff_eq]
  open EncodedRow in
  exact ⟨x_back, x_back, x_back, x_back, x_back, x_back, x_back, x_back, x_back, x_back, x_back, by simp⟩

/-- A row's instruction, read from a word of the row, encodes to that word. -/
theorem encode_build {r : OpRow} (hr : r ∈ opRows) {w : Word} (hw : r.hits w = true) : encode (r.build w) = w := by
  simp only [opRows, List.mem_append] at hr
  rcases hr with (hr | hr) | hr
  · exact encode_build_low w r hr hw
  · exact encode_build_mid w r hr hw
  · exact encode_build_high w r hr hw

/-- Settles O4: a decoded word stands in the row it was decoded by, and encoding puts the row's fields back. -/
theorem encodeOfDecodeIsIdentity : Obligations.EncodeOfDecodeIsIdentity := by
  intro w i h
  obtain ⟨r, hr, hits, rfl⟩ := row_of_decode h
  exact encode_build hr hits

/-! ## The 34 rows as statements about words (R95) -/

/-- Row n of the opcode map decides every word that matches it. -/
theorem hasRow_at (n : Nat) {mask pattern : Word} {build : Word → Instr}
    (h : opRows[n]? = some ⟨mask, pattern, build⟩) : HasRow mask pattern build :=
  Machine.hasRow_of_mem (List.mem_of_getElem? h)

/-- Settles O5: the rows of the statement are the rows of the opcode map, in its order; the eight words decode by
computation. -/
theorem wordsOfTheMapDecode : Obligations.WordsOfTheMapDecode :=
  ⟨hasRow_at 0 rfl, hasRow_at 1 rfl, hasRow_at 2 rfl, hasRow_at 3 rfl, hasRow_at 4 rfl, hasRow_at 5 rfl,
    hasRow_at 6 rfl, hasRow_at 7 rfl, hasRow_at 8 rfl, hasRow_at 9 rfl, hasRow_at 10 rfl, hasRow_at 11 rfl,
    hasRow_at 12 rfl, hasRow_at 13 rfl, hasRow_at 14 rfl, hasRow_at 15 rfl, hasRow_at 16 rfl, hasRow_at 17 rfl,
    hasRow_at 18 rfl, hasRow_at 19 rfl, hasRow_at 20 rfl, hasRow_at 21 rfl, hasRow_at 22 rfl, hasRow_at 23 rfl,
    hasRow_at 24 rfl, hasRow_at 25 rfl, hasRow_at 26 rfl, hasRow_at 27 rfl, hasRow_at 28 rfl, hasRow_at 29 rfl,
    hasRow_at 30 rfl, hasRow_at 31 rfl, hasRow_at 32 rfl, hasRow_at 33 rfl,
    by decide, by decide, by decide, by decide, by decide, by decide, by decide, by decide⟩

/-! ## The words without an instruction (R96) -/

theorem toNat_and_family (w : Word) : (w &&& 0xF000).toNat = 4096 * (w.toNat / 4096) := by
  have hshift : w &&& (0xF000 : Word) = w >>> 12 <<< 12 := by
    apply BitVec.eq_of_getLsbD_eq
    intro i hi
    interval_cases i <;> simp
  have hw : w.toNat < 65536 := w.isLt
  rw [hshift, BitVec.toNat_shiftLeft, BitVec.toNat_ushiftRight, Nat.shiftRight_eq_div_pow, Nat.shiftLeft_eq]
  omega

/-- A mask that keeps the family digit and the low k bits keeps their values. -/
theorem toNat_and_mask (w mask : Word) {k : Nat} (hk : k ≤ 12) (hm : mask = 0xF000 ||| BitVec.ofNat 16 (2 ^ k - 1)) :
    (w &&& mask).toNat = 4096 * (w.toNat / 4096) + w.toNat % 2 ^ k := by
  have hpow : 2 ^ k ≤ 2 ^ 12 := Nat.pow_le_pow_right (by decide) hk
  have hlow : w.toNat % 2 ^ k < 2 ^ 12 := (Nat.mod_lt _ (Nat.two_pow_pos k)).trans_le hpow
  have hmask : (BitVec.ofNat 16 (2 ^ k - 1)).toNat = 2 ^ k - 1 := Nat.mod_eq_of_lt (by omega)
  rw [hm, BitVec.and_or_distrib_left, BitVec.toNat_or, toNat_and_family, BitVec.toNat_and, hmask,
    Nat.and_two_pow_sub_one_eq_mod, Nat.mul_comm, ← Nat.shiftLeft_eq _ 12, Nat.shiftLeft_add_eq_or_of_lt hlow]

/-- A word matches a pattern under such a mask when its family digit and its low k bits are the pattern's. -/
theorem and_mask_eq_iff {w mask p : Word} {k : Nat} (hk : k ≤ 12)
    (hm : mask = 0xF000 ||| BitVec.ofNat 16 (2 ^ k - 1)) (hp : p &&& mask = p) :
    w &&& mask = p ↔ w.toNat / 4096 = p.toNat / 4096 ∧ w.toNat % 2 ^ k = p.toNat % 2 ^ k := by
  have hpow : 2 ^ k ≤ 2 ^ 12 := Nat.pow_le_pow_right (by decide) hk
  have hwk := Nat.mod_lt w.toNat (Nat.two_pow_pos k)
  have hpk := Nat.mod_lt p.toNat (Nat.two_pow_pos k)
  have hpv := toNat_and_mask p mask hk hm
  rw [hp] at hpv
  rw [← BitVec.toNat_inj, toNat_and_mask w mask hk hm]
  omega

theorem and_F000_eq_iff {w p : Word} (hp : p &&& 0xF000 = p) : w &&& 0xF000 = p ↔ w.toNat / 4096 = p.toNat / 4096 := by
  rw [and_mask_eq_iff (k := 0) (by decide) (by decide) hp, Nat.pow_zero, Nat.mod_one, Nat.mod_one]
  exact and_iff_left rfl

theorem and_F00F_eq_iff {w p : Word} (hp : p &&& 0xF00F = p) :
    w &&& 0xF00F = p ↔ w.toNat / 4096 = p.toNat / 4096 ∧ w.toNat % 16 = p.toNat % 16 :=
  and_mask_eq_iff (k := 4) (by decide) (by decide) hp

theorem and_F0FF_eq_iff {w p : Word} (hp : p &&& 0xF0FF = p) :
    w &&& 0xF0FF = p ↔ w.toNat / 4096 = p.toNat / 4096 ∧ w.toNat % 256 = p.toNat % 256 :=
  and_mask_eq_iff (k := 8) (by decide) (by decide) hp

theorem and_FFFF (w : Word) : w &&& 0xFFFF = w := BitVec.and_allOnes

/-- The two words of family 0 that are legal stand in no other family. -/
theorem ne_cls_ret_of_family {w : Word} (h : w.toNat / 4096 ≠ 0) : w ≠ 0x00E0#16 ∧ w ≠ 0x00EE#16 := by
  constructor <;> rintro rfl <;> exact h (by decide)

/-- Settles O6: each row is a condition on the family digit and the low bits, and family by family the words that meet none
of them are those of the table. -/
theorem illegalWordsAreThoseOfTheTable : Obligations.IllegalWordsAreThoseOfTheTable := by
  intro w
  have hfamily : w.toNat / 4096 < 16 := Nat.div_lt_of_lt_mul w.isLt
  have hfixed := ne_cls_ret_of_family (w := w)
  simp only [decode_eq_none_iff, opRows, List.forall_mem_append, opRowsLow, opRowsMid, opRowsHigh, List.forall_mem_cons,
    OpRow.hits, beq_eq_false_iff_ne, ne_eq, IllegalWord]
  simp (disch := decide) only [and_FFFF, and_F000_eq_iff, and_F00F_eq_iff, and_F0FF_eq_iff]
  generalize w.toNat / 4096 = family at *
  by_cases h8 : family = 8
  · subst h8
    simp [hfixed]
    omega
  · interval_cases family <;> simp [hfixed] at h8 ⊢

end Sys2Proof
end

section
/-! What one execution may change: every instruction's frame (spec/40_step_cycle.md R126, spec/10_state.md R22, R25). -/

namespace Sys2Proof.Machine

open Sys2Proof.Claims

variable {i : Instr} {s t : State}

/-- Settles O48: RET and CALL pop, push or latch, Fx65 loads registers, and the next state of each other instruction is
written out by its meaning as an update of the fields its rule names. -/
theorem stateChangesOnlyByItsInstructions : Obligations.StateChangesOnlyByItsInstructions := by
  intro i s t h
  cases i
  case ret => rcases execRet_cases h with ⟨hs, rfl⟩ | ⟨top, rest, -, rfl⟩ <;> simp [*]
  case call => rcases execCall_cases h with ⟨hs, rfl⟩ | ⟨-, rfl⟩ <;> simp [*]
  case load => obtain ⟨v, rfl⟩ := execLoad_frame h; simp [State.memRead]
  all_goals (cases h; simp [State.takeKeys, State.takeDraw, samples])

/-! ## Registers -/

/-- Under a flag-producing instruction the registers besides Vx and VF stay. -/
theorem State.writeFlagged_getV_of_ne (s : State) {x y : Nibble} (hx : y ≠ x) (hf : y ≠ 0xF) (flag result : Byte) :
    (s.writeFlagged x flag result).getV y = s.getV y := by
  rw [State.writeFlagged_eq, State.setV_getV_of_ne _ hx, State.setV_getV_of_ne _ hf]

/-- The flag stays in VF unless VF is the destination (R173). -/
theorem State.writeFlagged_getV_flag (s : State) {x : Nibble} (hx : x ≠ 0xF) (flag result : Byte) :
    (s.writeFlagged x flag result).getV 0xF = flag := by
  rw [State.writeFlagged_eq, State.setV_getV_of_ne _ hx.symm, State.setV_getV_same]

/-- Settles O49: an instruction writes no register, or Vx, or VF and then Vx, or VF alone (a draw), or V0 to Vx. -/
theorem registersChangeOnlyAsDestinations : Obligations.RegistersChangeOnlyAsDestinations := by
  intro i s t y h hdest hflag
  cases i
  case ret => rcases execRet_cases h with ⟨-, rfl⟩ | ⟨_, _, -, rfl⟩ <;> rfl
  case call => rcases execCall_cases h with ⟨-, rfl⟩ | ⟨-, rfl⟩ <;> rfl
  case load x =>
    cases h
    have hy : ¬ y.toNat ≤ x.toNat := of_decide_eq_false hdest
    rw [State.loadRegs_getV s _ (by omega), if_neg (by omega)]
  case drw => cases h; exact State.setV_getV_of_ne _ (hflag rfl) _
  case addReg | subReg | shr | subnReg | shl =>
    cases h; exact s.writeFlagged_getV_of_ne (ne_of_beq_false hdest).symm (hflag rfl) _ _
  case ldImm | addImm | ldReg | orReg | andReg | xorReg | rnd | ldVxDT =>
    cases h; exact State.setV_getV_of_ne _ (ne_of_beq_false hdest).symm _
  all_goals (cases h; rfl)

/-- Settles O33: the flag of a flag-producing instruction is a `flagByte`, which the result does not replace as VF is no
destination; any other instruction leaves VF by O49. -/
theorem flagIsWrittenOnlyAsNamed : Obligations.FlagIsWrittenOnlyAsNamed := by
  intro i s t h hdest
  refine ⟨fun hflag => ?_, fun hflag => registersChangeOnlyAsDestinations i s t 0xF h hdest (by simp [hflag])⟩
  cases i <;> cases hflag
  case drw => cases h; rw [State.setV_getV_same]; exact flagByte_cases _
  all_goals
    cases h
    rw [s.writeFlagged_getV_flag (ne_of_beq_false hdest)]
    exact flagByte_cases _

/-! ## Return and call, case by case (R140, R142) -/

theorem exec_ret_of_nil (hs : s.stack = []) : exec .ret s = .next (s.raiseIn .ret .stackUnderflow) := by
  rw [exec, execRet, hs]

theorem exec_ret_of_cons {top : Word} {rest : List Word} (hs : s.stack = top :: rest) :
    exec .ret s = .next ((s.setStack rest).setPc top) := by
  rw [exec, execRet, hs]

theorem exec_call_of_full {nnn : Imm12} (hs : s.sp = s.stackDepth) :
    exec (.call nnn) s = .next (s.raiseIn (.call nnn) .stackOverflow) :=
  if_pos (beq_iff_eq.mpr hs)

theorem exec_call_of_not_full {nnn : Imm12} (hs : s.sp ≠ s.stackDepth) :
    exec (.call nnn) s = .next ((s.push s.pc).setPc (immAddr nnn)) :=
  if_neg (mt beq_iff_eq.mp hs)

/-! ## The program counter -/

/-- The key skips on the level of the key that the low nibble of Vx numbers (R220, R221). -/
theorem exec_skp (x : Nibble) (s : State) : exec (.skp x) s = .next (s.takeKeys.setPc
    (if s.keysNow.getLsbD ((s.getV x).toNat % 16) = true then s.pc + 2 else s.pc)) := by
  rw [← keyCode_toNat]; rfl

theorem exec_sknp (x : Nibble) (s : State) : exec (.sknp x) s = .next (s.takeKeys.setPc
    (if s.keysNow.getLsbD ((s.getV x).toNat % 16) = true then s.pc else s.pc + 2)) := by
  rw [← keyCode_toNat, exec, execSknp, State.skipIf_eq, keyHeld]
  cases s.keysNow.getLsbD (keyCode (s.getV x)).toNat <;> rfl

/-- Settles O27: RET and CALL by what they can do; the other instructions write `pc` by `State.setPc`, by a skip, or not at
all. -/
theorem pcAfterEachInstruction : Obligations.PcAfterEachInstruction := by
  intro i s t h
  cases i
  case ret => rcases execRet_cases h with ⟨hs, rfl⟩ | ⟨_, _, hs, rfl⟩ <;> simp [hs]
  case call => rcases execCall_cases h with ⟨hs, rfl⟩ | ⟨hs, rfl⟩ <;> simp [hs, immAddr]
  case load => obtain ⟨v, rfl⟩ := execLoad_frame h; rfl
  case seImm | sneImm | seReg | sneReg => cases h; simp
  case skp => rw [exec_skp] at h; cases h; rfl
  case sknp => rw [exec_sknp] at h; cases h; rfl
  all_goals (cases h; rfl)

/-! ## The sound timer -/

/-- Loading registers neither reads nor writes ST. -/
theorem State.loadRegs_setST (s : State) (b : Byte) (base k : Nat) :
    (s.setST b).loadRegs base k = (s.loadRegs base k).setST b := by
  induction k with
  | zero => rfl
  | succ k ih => rw [State.loadRegs, State.loadRegs, ih]; rfl

/-- Every instruction but Fx18 does the same whatever ST holds, and leaves ST as it finds it. -/
theorem exec_setST (hi : ∀ x, i ≠ .ldSTVx x) (h : exec i s = .next t) (b : Byte) :
    exec i (s.setST b) = .next (t.setST b) := by
  cases i
  case ret =>
    rcases execRet_cases h with ⟨hs, rfl⟩ | ⟨top, rest, hs, rfl⟩
    · exact exec_ret_of_nil (s := s.setST b) hs
    · exact exec_ret_of_cons (s := s.setST b) hs
  case call nnn =>
    rcases execCall_cases h with ⟨hs, rfl⟩ | ⟨hs, rfl⟩
    · exact exec_call_of_full (s := s.setST b) hs
    · exact exec_call_of_not_full (s := s.setST b) hs
  case load => cases h; exact congrArg _ (s.loadRegs_setST b _ _)
  case ldSTVx x => exact absurd rfl (hi x)
  all_goals (cases h; rfl)

/-- Settles O50: Fx18 overwrites ST, and every other instruction commutes with a write to it. -/
theorem noInstructionReadsTheSoundTimer : Obligations.NoInstructionReadsTheSoundTimer := by
  intro i s t b h
  by_cases hi : ∃ x, i = .ldSTVx x
  · obtain ⟨x, rfl⟩ := hi
    cases h
    exact ⟨_, rfl, rfl, fun hne => absurd rfl (hne x)⟩
  · exact ⟨_, exec_setST (fun x hx => hi ⟨x, hx⟩) h b, rfl, fun _ => rfl⟩

end Sys2Proof.Machine
end

section
/-! One step: what it runs, which errors it latches, and when it changes nothing (spec/40_step_cycle.md R120 to R127,
spec/60_exceptions.md R241 to R251). -/

namespace Sys2Proof.Machine

open Sys2Proof.Claims

variable {i : Instr} {s t : State}

/-! ## The latch in an execution -/

/-- What an execution can do to the latch: nothing, or the error of a return on an empty stack or of a call on a full one. -/
theorem exec_latch_cases (h : exec i s = .next t) :
    (t.halted = s.halted ∧ t.errCode = s.errCode ∧ t.errPc = s.errPc ∧ t.errOp = s.errOp) ∨
    (i = .ret ∧ s.stack = [] ∧ t = s.raiseIn i .stackUnderflow) ∨
    ((∃ nnn, i = .call nnn) ∧ s.sp = s.stackDepth ∧ t = s.raiseIn i .stackOverflow) := by
  by_cases hl : t.halted = s.halted ∧ t.errCode = s.errCode ∧ t.errPc = s.errPc ∧ t.errOp = s.errOp
  · exact .inl hl
  obtain ⟨-, -, -, -, -, -, -, hlatch, -, -⟩ := stateChangesOnlyByItsInstructions i s t h
  have hchanged : t.halted ≠ s.halted ∨ t.errCode ≠ s.errCode ∨ t.errPc ≠ s.errPc ∨ t.errOp ≠ s.errOp := by tauto
  rcases hlatch hchanged with ⟨rfl, hs⟩ | ⟨⟨nnn, rfl⟩, hs⟩
  · rw [exec_ret_of_nil hs] at h; cases h; exact .inr (.inl ⟨rfl, hs, rfl⟩)
  · rw [exec_call_of_full hs] at h; cases h; exact .inr (.inr ⟨⟨nnn, rfl⟩, hs, rfl⟩)

/-- An error raised while executing the word at `pc` is the record of that address and that word, `pc` advanced (R245). -/
theorem raiseIn_advance (hd : decode (s.wordAt s.pc) = some i) (e : ErrorKind) :
    s.advance.raiseIn i e = latched { s with pc := s.pc + 2 } e.code s.pc (s.wordAt s.pc) := by
  have haddr : s.pc + 2 - 2 = s.pc := BitVec.add_sub_cancel _ _
  rw [State.raiseIn_eq, encodeOfDecodeIsIdentity _ _ hd, State.advance_eq, State.setPc_pc, haddr]
  rfl

/-! ## The obligations about one step -/

theorem State.gated_eq_false_iff (s : State) : s.gated = false ↔ s.halted = false ∧ s.paused = false :=
  Bool.or_eq_false_iff

/-- Settles O1: the operation invoked is a Step, its gate is open, and the word at `pc` decodes to the instruction. -/
theorem stepRunsDecodedInstruction : Obligations.StepRunsDecodedInstruction := by
  intro s i hop hh hp hd
  rw [step, hop]
  exact stepInstruction_of_decode (s := s.popScript) ((s.gated_eq_false_iff).mpr ⟨hh, hp⟩) hd

/-- Settles O2: a word is its two bytes as one number, and a read masks its own address. -/
theorem fetchIsBigEndianAndMasked : Obligations.FetchIsBigEndianAndMasked := by
  intro s a
  rw [State.wordAt, wordOf_toNat]
  simp only [State.memRead, Memory.read_mask]

/-- Settles O7: R96's table is where the decoder answers nothing (O6), and there a Step raises DecodeError. -/
theorem illegalWordLatchesDecodeError : Obligations.IllegalWordLatchesDecodeError := by
  intro s hg hw
  exact stepInstruction_of_illegal hg ((illegalWordsAreThoseOfTheTable _).mpr hw)

/-- Settles O8: by induction on the number of Steps, each of which meets the closed gate. -/
theorem gatedStepsChangeNothing : Obligations.GatedStepsChangeNothing := by
  intro s k hclosed
  have hstep : perform .step s = .next s := stepInstruction_of_gated (by simpa [State.gated, or_comm] using hclosed)
  induction k with
  | zero => rfl
  | succ k ih => rw [List.replicate_succ, performAll_cons hstep, ih]

/-- Settles O9: a Step that latches an error is no closed gate; it raises DecodeError, or executes an instruction that
raises one of the two stack errors on the advanced state. -/
theorem onlyThreeErrorsInAStep : Obligations.OnlyThreeErrorsInAStep := by
  intro s t hs h ht
  rcases stepInstruction_cases h with ⟨-, rfl⟩ | ⟨-, i, hd, hx⟩ | ⟨-, hd, rfl⟩
  · exact absurd (hs.symm.trans ht) Bool.false_ne_true
  · rcases exec_latch_cases hx with ⟨hsame, -⟩ | ⟨rfl, hstack, rfl⟩ | ⟨⟨nnn, rfl⟩, hfull, rfl⟩
    · exact absurd (hs.symm.trans (hsame.symm.trans ht)) Bool.false_ne_true
    · exact ⟨2, raiseIn_advance hd _, .inr (.inl ⟨rfl, hd, hstack⟩)⟩
    · exact ⟨3, raiseIn_advance hd _, .inr (.inr ⟨rfl, ⟨nnn, hd⟩, hfull⟩)⟩
  · exact ⟨1, rfl, .inl ⟨rfl, hd⟩⟩

/-- Settles O10: a step is one operation, and none stops. -/
theorem everyStepAnswersANextState : Obligations.EveryStepAnswersANextState :=
  fun s => perform_next s.nextOp s.popScript

/-- Settles O51: the jump writes back the address it was fetched from, which fits in 12 bits. -/
theorem selfJumpIsAFixedPoint : Obligations.SelfJumpIsAFixedPoint := by
  intro s h
  simp only [State.idle, Bool.and_eq_true, Bool.not_eq_true', decide_eq_true_eq] at h
  obtain ⟨⟨hg, hd⟩, (hpc : s.pc.toNat < 4096)⟩ := h
  have htarget : (s.pc.setWidth 12).setWidth 16 = s.pc := by
    apply BitVec.eq_of_toNat_eq
    simp only [BitVec.toNat_setWidth]
    omega
  rw [perform, stepInstruction_of_decode hg hd, exec_jp, htarget]
  rfl

/-- Settles O53: a step performs the first operation of the order; no operation touches the rest of it; and a script that is
used up is followed by the free operations. -/
theorem stepsFollowTheOrderOfOperations : Obligations.StepsFollowTheOrderOfOperations := by
  refine ⟨fun s => rfl, fun s t n h => ?_, fun s ops => ⟨fun n hn => ?_, fun n => ?_⟩⟩
  · rw [State.schedule_congr (perform_order h), State.popScript_schedule]
  · exact List.getD_eq_getElem _ _ hn
  · exact List.getD_eq_default _ _ (Nat.le_add_right _ _)

end Sys2Proof.Machine
end

section
/-! The invariants of spec/10_state.md R35, from every state and along every session (spec/70_reset_and_hazards.md R283). -/

namespace Sys2Proof.Machine

open Sys2Proof.Claims

variable {i : Instr} {s t : State}

/-! ## The invariants in an execution -/

theorem exec_stackDepth (h : exec i s = .next t) : t.stackDepth = s.stackDepth := by
  obtain ⟨-, -, -, -, -, -, -, -, -, hdepth⟩ := stateChangesOnlyByItsInstructions i s t h
  exact hdepth

/-- `I` stays below 4096: the three instructions that write it write a 12-bit immediate, a masked sum, or at most 255 times 5
(R23). -/
theorem exec_index_lt (hs : s.I.toNat < 4096) (h : exec i s = .next t) : t.I.toNat < 4096 := by
  by_cases hI : t.I = s.I
  · rwa [hI]
  obtain ⟨-, -, -, -, hindex, -⟩ := stateChangesOnlyByItsInstructions i s t h
  rcases hindex hI with ⟨nnn, rfl⟩ | ⟨x, rfl⟩ | ⟨x, rfl⟩
  · cases h
    have hn : nnn.toNat < 4096 := nnn.isLt
    simpa [immAddr] using (Nat.mod_le _ _).trans_lt hn
  · cases h
    rw [State.setI_I, toNat_add_byteAddr_mask]
    exact Nat.mod_lt _ (by decide)
  · cases h
    have hb := (s.getV x).isLt
    exact (toNat_byteAddr_mul_five _).trans_lt (by omega)

/-- The stack stays within its depth: a call pushes only below it (R26). -/
theorem exec_sp_le (hs : s.sp ≤ s.stackDepth) (h : exec i s = .next t) : t.sp ≤ t.stackDepth := by
  by_cases hstack : t.stack = s.stack
  · rwa [State.sp, hstack, exec_stackDepth h]
  obtain ⟨-, -, -, hret, -⟩ := stateChangesOnlyByItsInstructions i s t h
  rcases hret hstack with rfl | ⟨nnn, rfl⟩
  · rcases execRet_cases h with ⟨-, rfl⟩ | ⟨top, rest, hpop, rfl⟩
    · exact hs
    · rw [State.sp, hpop] at hs
      exact Nat.le_of_succ_le hs
  · rcases execCall_cases h with ⟨-, rfl⟩ | ⟨hne, rfl⟩
    · exact hs
    · exact Nat.lt_of_le_of_ne hs hne

/-- The latch and its companions agree after any error of R240. -/
theorem State.raise_latchConsistent (s : State) (e : ErrorKind) (a op : Word) :
    (s.raise e a op).latchConsistent = true := by
  cases e <;> rfl

theorem exec_latchConsistent (hs : s.latchConsistent = true) (h : exec i s = .next t) : t.latchConsistent = true := by
  rcases exec_latch_cases h with ⟨hh, hc, hp, ho⟩ | ⟨-, -, rfl⟩ | ⟨-, -, rfl⟩
  · rwa [State.latchConsistent, hh, hc, hp, ho]
  · exact s.raise_latchConsistent _ _ _
  · exact s.raise_latchConsistent _ _ _

theorem inv_exec (hs : s.Inv) (h : exec i s = .next t) : t.Inv where
  index := exec_index_lt hs.index h
  stack := exec_sp_le hs.stack h
  depth := by rw [exec_stackDepth h]; exact hs.depth
  latch := exec_latchConsistent hs.latch h
  memory := exec_mem_wf hs.memory h

/-! ## The invariants in the other operations -/

theorem inv_raise (hs : s.Inv) (e : ErrorKind) (a op : Word) : (s.raise e a op).Inv :=
  ⟨hs.index, hs.stack, hs.depth, s.raise_latchConsistent e a op, hs.memory⟩

theorem inv_stepInstruction (hs : s.Inv) (h : stepInstruction s = .next t) : t.Inv := by
  have hadvance : s.advance.Inv := ⟨hs.index, hs.stack, hs.depth, hs.latch, hs.memory⟩
  rcases stepInstruction_cases h with ⟨-, rfl⟩ | ⟨-, i, -, hx⟩ | ⟨-, -, rfl⟩
  · exact hs
  · exact inv_exec hadvance hx
  · exact inv_raise hadvance _ _ _

theorem inv_resetCore (hs : s.Inv) : s.resetCore.Inv :=
  ⟨Nat.zero_lt_succ _, Nat.zero_le _, hs.depth, rfl, rfl⟩

/-- A rejected image latches code 4, or keeps the code there is (R244). -/
theorem State.rejectLoad_latchConsistent (hs : s.latchConsistent = true) : s.rejectLoad.latchConsistent = true := by
  cases hh : s.halted
  · rw [State.latchConsistent, State.rejectLoad_errCode, hh]; rfl
  · simpa [State.latchConsistent, hh] using hs

theorem inv_loadProgram (hs : s.Inv) (bytes : List Byte) : (s.loadProgram bytes).Inv := by
  rw [State.loadProgram]
  split
  · exact ⟨hs.index, hs.stack, hs.depth, State.rejectLoad_latchConsistent hs.latch, hs.memory⟩
  · exact ⟨hs.index, hs.stack, hs.depth, hs.latch, Memory.writeBytes_wf hs.memory _ _⟩

theorem inv_deliverKey (hs : s.Inv) (k : Nibble) : (s.deliverKey k).Inv := by
  rcases s.deliverKey_cases k with ⟨-, e⟩ | ⟨-, -, e⟩ <;> rw [e]
  · exact hs
  · exact ⟨hs.index, hs.stack, hs.depth, hs.latch, hs.memory⟩

theorem inv_perform {op : Operation} (hs : s.Inv) (h : perform op s = .next t) : t.Inv := by
  cases op
  case reset => cases h; exact inv_resetCore hs
  case loadProgram bytes => cases h; exact inv_loadProgram hs bytes
  case step => exact inv_stepInstruction hs h
  case timerTick => cases h; exact ⟨hs.index, hs.stack, hs.depth, hs.latch, hs.memory⟩
  case deliverKey k => cases h; exact inv_deliverKey hs k

/-- Settles O11: every register of the reset state is a literal. -/
theorem invariantsHoldAtReset : Obligations.InvariantsHoldAtReset :=
  ⟨by decide, by decide, by decide, rfl, rfl⟩

/-- Settles O12: a step is one operation, on a state whose script alone has moved, and each of the five keeps the
invariants. -/
theorem everyStepKeepsTheInvariants : Obligations.EveryStepKeepsTheInvariants := by
  intro s t hs h
  have hpop : s.popScript.Inv := ⟨hs.index, hs.stack, hs.depth, hs.latch, hs.memory⟩
  exact inv_perform hpop h

/-! ## Never both paused and halted -/

/-- No execution begins a wait and latches an error at once, so from an open gate at most one of the two is set. -/
theorem exec_notPausedAndHalted (hg : s.gated = false) (h : exec i s = .next t) : t.notPausedAndHalted = true := by
  obtain ⟨hh, hp⟩ := s.gated_eq_false_iff.mp hg
  rcases exec_latch_cases h with ⟨hsame, -⟩ | ⟨-, -, rfl⟩ | ⟨-, -, rfl⟩
  · simp [State.notPausedAndHalted, hsame, hh]
  · simp [State.notPausedAndHalted, hp]
  · simp [State.notPausedAndHalted, hp]

theorem stepInstruction_notPausedAndHalted (hs : s.notPausedAndHalted = true) (h : stepInstruction s = .next t) :
    t.notPausedAndHalted = true := by
  rcases stepInstruction_cases h with ⟨-, rfl⟩ | ⟨hg, i, -, hx⟩ | ⟨hg, -, rfl⟩
  · exact hs
  · exact exec_notPausedAndHalted (s := s.advance) hg hx
  · obtain ⟨-, hp⟩ := s.gated_eq_false_iff.mp hg
    simp [State.notPausedAndHalted, hp]

theorem State.boot_notPausedAndHalted (s : State) (bytes : List Byte) : (s.boot bytes).notPausedAndHalted = true := by
  rw [State.boot, State.loadProgram]
  split <;> rfl

/-- Settles O52: a Step latches or waits only from an open gate, a tick writes neither bit, a delivery only ends a wait, and
after the boot sequence the core does not wait. -/
theorem sessionOperationsKeepNotPausedAndHalted : Obligations.SessionOperationsKeepNotPausedAndHalted := by
  refine ⟨fun s t op hop hs h => ?_, State.boot_notPausedAndHalted⟩
  cases op
  case reset | loadProgram => cases hop
  case step => exact stepInstruction_notPausedAndHalted hs h
  case timerTick => cases h; exact hs
  case deliverKey k =>
    cases h
    rcases s.deliverKey_cases k with ⟨-, e⟩ | ⟨-, -, e⟩ <;> rw [e]
    · exact hs
    · rfl

/-- A property that every operation of a list keeps holds after the list, which never stops. -/
theorem performAll_induction {P : State → Prop} {ops : List Operation}
    (hkeep : ∀ op ∈ ops, ∀ s t, P s → perform op s = .next t → P t) (hs : P s) : ∃ t, performAll ops s = .next t ∧ P t := by
  induction ops generalizing s with
  | nil => exact ⟨s, rfl, hs⟩
  | cons op ops ih =>
    obtain ⟨u, hu⟩ := perform_next op s
    rw [performAll_cons hu]
    exact ih (fun o ho => hkeep o (List.mem_cons_of_mem op ho)) (hkeep op List.mem_cons_self s u hs hu)

theorem State.notPausedAndHalted_iff (s : State) : s.notPausedAndHalted = true ↔ ¬ (s.paused = true ∧ s.halted = true) := by
  simp [State.notPausedAndHalted, Decidable.imp_iff_not_or]

/-- Settles O13: by O52 the boot state is not both and each operation of the session keeps it so. -/
theorem sessionIsNeverPausedAndHalted : Obligations.SessionIsNeverPausedAndHalted := by
  intro s bytes ops hops
  obtain ⟨hkeep, hboot⟩ := sessionOperationsKeepNotPausedAndHalted
  obtain ⟨t, ht, hnot⟩ := performAll_induction (P := fun s => s.notPausedAndHalted = true)
    (fun op ho s t => hkeep s t op (hops op ho)) (hboot s bytes)
  exact ⟨t, ht, t.notPausedAndHalted_iff.mp hnot⟩

/-- Settles O14: a halted core's gate is closed to Steps and deliveries, a rejected image keeps the code of a halted core, and
the rest write none of the four. -/
theorem onlyResetClearsTheLatch : Obligations.OnlyResetClearsTheLatch := by
  intro s op hs hop
  cases op
  case reset => exact absurd rfl hop
  case loadProgram bytes =>
    refine ⟨_, rfl, ?_⟩
    rw [State.loadProgram]
    split <;> simp [hs]
  case step => exact ⟨s, stepInstruction_of_gated (by simp [State.gated, hs]), hs, rfl, rfl, rfl⟩
  case timerTick => exact ⟨_, rfl, hs, rfl, rfl, rfl⟩
  case deliverKey k => exact ⟨s, congrArg _ (if_pos hs), hs, rfl, rfl, rfl⟩

end Sys2Proof.Machine
end

section
/-! Memory through the machine's eyes: stores, dumps and loads (spec/20_memory.md R60, R61,
spec/43_index_memory.md R183 to R185). -/

namespace Sys2Proof.Machine

open Sys2Proof.Claims

/-! ## Stores -/

/-- A store of at most 4096 bytes is the whole effect that `StoresBytes` allows: the bytes, the other addresses, the rest of
the state. -/
theorem State.storesBytes_storeBytes {s : State} (hm : s.mem.wf = true) (base : Nat) {bs : List Byte}
    (hl : bs.length ≤ 4096) : StoresBytes s (s.storeBytes base bs) base bs :=
  ⟨State.memRead_storeBytes hm base bs hl, State.memRead_storeBytes_of_ne hm base bs, rfl⟩

/-- Settles O40: a write compares the two addresses after the mask. -/
theorem readAfterWriteIsMasked : Obligations.ReadAfterWriteIsMasked :=
  fun _ a b v hm => Memory.read_write hm a v b

theorem exec_ldB (x : Nibble) (s : State) :
    exec (.ldB x) s = .next (s.storeBytes s.I.toNat (bcdBytes (s.getV x))) := rfl

theorem exec_dump (x : Nibble) (s : State) :
    exec (.dump x) s = .next (s.storeBytes s.I.toNat (s.regBytes (x.toNat + 1))) := rfl

theorem exec_load (x : Nibble) (s : State) : exec (.load x) s = .next (s.loadRegs s.I.toNat (x.toNat + 1)) := rfl

/-- Settles O35: the bytes stored are the three digits, each below 256, and they make up Vx again. -/
theorem bcdStoresTheThreeDigits : Obligations.BcdStoresTheThreeDigits := by
  refine ⟨hasRow_at 31 rfl, fun x s hm => ⟨_, _, _, _, exec_ldB x s, State.storesBytes_storeBytes hm _ (show 3 ≤ 4096 by decide), ?_⟩⟩
  have hv := (s.getV x).isLt
  simp only [BitVec.toNat_ofNat]
  omega

/-- The bytes of a dump fit in memory. -/
theorem State.regBytes_length_le (s : State) (x : Nibble) : (s.regBytes (x.toNat + 1)).length ≤ 4096 := by
  have hx := x.isLt
  rw [State.regBytes_length]
  omega

/-- Settles O36: a dump stores `State.regBytes`, which are V0 to Vx. -/
theorem dumpStoresTheRegisters : Obligations.DumpStoresTheRegisters :=
  fun x s hm => ⟨_, exec_dump x s, State.storesBytes_storeBytes hm _ (s.regBytes_length_le x)⟩

/-- After a dump the byte at I + k is Vk (R184). -/
theorem exec_dump_memRead {x y : Nibble} {s t : State} (hm : s.mem.wf = true) (h : exec (.dump x) s = .next t)
    (hy : y.toNat ≤ x.toNat) : t.memRead (s.I.toNat + y.toNat) = s.getV y := by
  have hk : y.toNat < (s.regBytes (x.toNat + 1)).length := by rw [State.regBytes_length]; omega
  cases h
  rw [State.memRead_storeBytes hm _ _ (s.regBytes_length_le x) _ hk, State.regBytes_getElem, BitVec.ofNat_toNat,
    BitVec.setWidth_eq]

/-- A dump leaves `I` as it is (D12). -/
theorem exec_dump_I {x : Nibble} {s t : State} (h : exec (.dump x) s = .next t) : t.I = s.I := by
  cases h; rfl

/-- After a load each of V0 to Vx holds its byte of memory, and the other registers are unchanged (R185). -/
theorem exec_load_getV {x : Nibble} {s t : State} (h : exec (.load x) s = .next t) (y : Nibble) :
    t.getV y = if y.toNat ≤ x.toNat then s.memRead (s.I.toNat + y.toNat) else s.getV y := by
  have hx : x.toNat < 16 := x.isLt
  cases h
  rw [State.loadRegs_getV s _ (by omega)]
  simp only [Nat.lt_succ_iff]

/-- Settles O37: a load writes V alone, register by register. -/
theorem loadReadsTheRegisters : Obligations.LoadReadsTheRegisters := by
  intro x s
  obtain ⟨v, hv⟩ := execLoad_frame (exec_load x s)
  exact ⟨_, exec_load x s, exec_load_getV (exec_load x s), by rw [hv]⟩

/-- Settles O38: the load reads at the same `I` the bytes the dump left there. -/
theorem dumpThenLoadRestoresTheRegisters : Obligations.DumpThenLoadRestoresTheRegisters := by
  intro x s t u v hm hdump hload y hy
  calc u.getV y = t.memRead (t.I.toNat + y.toNat) := by rw [exec_load_getV hload, if_pos hy]; rfl
    _ = t.memRead (s.I.toNat + y.toNat) := by rw [exec_dump_I hdump]
    _ = s.getV y := exec_dump_memRead hm hdump hy

/-- Settles O39: the two bytes of the fetch are those the dump stored for V0 and V1. -/
theorem storeIsSeenByTheFetch : Obligations.StoreIsSeenByTheFetch := by
  intro x s t hm hx hdump
  have h0 : t.memRead (s.I.toNat + 0) = s.getV 0 := exec_dump_memRead (y := 0) hm hdump (Nat.zero_le _)
  have h1 : t.memRead (s.I.toNat + 1) = s.getV 1 := exec_dump_memRead (y := 1) hm hdump hx
  rw [State.wordAt, wordOf_toNat, exec_dump_I hdump, h1]
  rw [Nat.add_zero] at h0
  rw [h0]

end Sys2Proof.Machine
end

section
/-! The operations besides Step: reset, program load, boot, ticks and key delivery (spec/70_reset_and_hazards.md R280 to
R284, spec/60_exceptions.md R244, R249, R250). -/

namespace Sys2Proof.Machine

open Sys2Proof.Claims

/-! ## Reset, load, boot -/

/-- After Reset memory holds the reset contents (R34). -/
theorem State.resetCore_memRead (s : State) {a : Nat} (ha : a < 4096) : s.resetCore.memRead a = initialByte a :=
  (Memory.read_nil a).trans (congrArg initialByte (Nat.mod_eq_of_lt ha))

/-- Settles O15: every register of the reset state is a literal, and unlisted memory reads as its reset contents. -/
theorem resetLeavesTheResetValues : Obligations.ResetLeavesTheResetValues := fun s =>
  ⟨_, rfl, fun _ => s.resetCore_memRead, getV_reset, rfl, rfl, rfl, rfl, rfl, pixel_reset, rfl, rfl, rfl, rfl, rfl, rfl,
    rfl, rfl⟩

theorem State.loadProgram_of_fits (s : State) {bytes : List Byte} (h : bytes.length ≤ 3584) :
    s.loadProgram bytes = s.storeBytes 0x200 bytes :=
  if_neg (Nat.not_lt.mpr h)

theorem State.loadProgram_of_oversize (s : State) {bytes : List Byte} (h : 3584 < bytes.length) :
    s.loadProgram bytes = s.rejectLoad :=
  if_pos h

/-- Settles O16: a fitting image is one store from 0x200 up. -/
theorem fittingImageIsCopied : Obligations.FittingImageIsCopied := by
  intro s bytes hm hl
  refine ⟨_, rfl, ?_⟩
  rw [s.loadProgram_of_fits hl]
  exact State.storesBytes_storeBytes hm _ (hl.trans (by decide))

/-- The rejection of an image writes what it finds when an error is latched already (R282). -/
theorem State.rejectLoad_of_halted {s : State} (hh : s.halted = true) : s.rejectLoad = s := by
  rw [State.rejectLoad, if_pos hh, ← hh]

theorem State.rejectLoad_of_not_halted {s : State} (hh : ¬ s.halted = true) :
    s.rejectLoad = { s with halted := true, errCode := 4 } := by
  rw [State.rejectLoad, if_neg hh]
  rfl

/-- Settles O17: an oversize image is `State.rejectLoad`, with and without an error latched. -/
theorem oversizeImageIsRejected : Obligations.OversizeImageIsRejected := by
  intro s bytes hl
  rw [perform, s.loadProgram_of_oversize hl]
  split
  · rw [State.rejectLoad_of_halted ‹_›]
  · rw [State.rejectLoad_of_not_halted ‹_›]

/-- Settles O18: the image stands at 0x200 and up, everywhere else memory is as Reset leaves it, and the load writes nothing
but memory. -/
theorem bootGivesTheLaunchPremises : Obligations.BootGivesTheLaunchPremises := by
  intro s bytes hl
  refine ⟨rfl, ?_⟩
  obtain ⟨himage, hothers, -⟩ : StoresBytes s.resetCore (s.resetCore.storeBytes 0x200 bytes) 0x200 bytes :=
    State.storesBytes_storeBytes rfl _ (hl.trans (by decide))
  have hreset : ∀ a, a < 4096 → (a < 0x200 ∨ 0x200 + bytes.length ≤ a) →
      (s.resetCore.storeBytes 0x200 bytes).memRead a = initialByte a := fun a ha hout => by
    rw [hothers a (fun k hk => by omega), s.resetCore_memRead ha]
  rw [State.boot, s.resetCore.loadProgram_of_fits hl]
  have hfont : FONT.length = 80 := by decide
  exact {
    notHalted := rfl
    notPaused := rfl
    stackEmpty := rfl
    registers := getV_reset
    index := rfl
    delayTimer := rfl
    soundTimer := rfl
    entry := rfl
    frameClear := pixel_reset
    image := himage
    font := fun k hk => by
      rw [hreset k (by omega) (by omega), initialByte, List.getD_eq_getElem _ _ hk]
    rest := fun a h80 ha hout => by
      rw [hreset a ha hout, initialByte_of_ge h80] }

/-! ## Ticks -/

/-- Settles O19: by induction on the number of ticks, each of which lowers both timers by one or leaves them at 0. -/
theorem ticksCountTheTimersDownToZero : Obligations.TicksCountTheTimersDownToZero := by
  intro s k
  induction k generalizing s with
  | zero => exact ⟨s, rfl, rfl, rfl, rfl⟩
  | succ k ih =>
    obtain ⟨t, ht, hDT, hST, hrest⟩ := ih s.timerTick
    refine ⟨t, by rw [List.replicate_succ, performAll_cons (t := s.timerTick) rfl, ht], ?_, ?_, ?_⟩
    · rw [hDT, State.timerTick_eq, State.setST_DT, State.setDT_DT, countDown_toNat]; omega
    · rw [hST, State.timerTick_eq, State.setST_ST, countDown_toNat]; omega
    · exact congrArg (fun u : State => { u with DT := s.DT, ST := s.ST }) hrest

theorem exec_ldSTVx (x : Nibble) (s : State) : exec (.ldSTVx x) s = .next (s.setST (s.getV x)) := rfl

/-- Settles O47: the tone sounds while ST is above 0, and after k ticks ST is k below what Fx18 put there (O19). -/
theorem toneLastsAsManyTicksAsSet : Obligations.ToneLastsAsManyTicksAsSet := by
  intro x s t k h
  cases (exec_ldSTVx x s).symm.trans h
  obtain ⟨u, hu, -, hST, -⟩ := ticksCountTheTimersDownToZero (s.setST (s.getV x)) k
  refine ⟨u, hu, ?_⟩
  have hon : u.soundOn = true ↔ 0 < u.ST.toNat := by simp [State.soundOn, BitVec.lt_def]
  rw [hon, hST, State.setST_ST]
  omega

/-! ## Key delivery -/

/-- A waiting core takes the key (R249). -/
theorem State.deliverKey_of_waiting {s : State} (hh : s.halted = false) (hp : s.paused = true) (k : Nibble) :
    s.deliverKey k = (s.setV s.waitX (k.setWidth 8)).endWait := by
  rw [State.deliverKey, hh, hp]; rfl

/-- Settles O20: the two cases of a delivery; ending the wait commutes with the register write. -/
theorem keyDeliveryEndsOnlyAWait : Obligations.KeyDeliveryEndsOnlyAWait := by
  refine ⟨fun s k hh hp => ⟨_, rfl, ?_⟩, fun s k hdrop => ?_⟩
  · rw [State.deliverKey_of_waiting hh hp]
    exact s.endWait.writesReg_setV s.waitX _
  · rw [perform]
    rcases s.deliverKey_cases k with ⟨-, e⟩ | ⟨hh, hp, -⟩
    · rw [e]
    · simp [hh, hp] at hdrop

/-- What Fx0A sets up and every Step and tick keeps until a key is delivered: the wait for register x, with the registers
and `pc` of s. -/
structure WaitsFor (x : Nibble) (s t : State) : Prop where
  registers : t.V = s.V
  pc : t.pc = s.pc
  paused : t.paused = true
  waitX : t.waitX = x
  halted : t.halted = false

theorem perform_waitsFor {x : Nibble} {s t u : State} {op : Operation} (hop : op = .step ∨ op = .timerTick)
    (ht : WaitsFor x s t) (h : perform op t = .next u) : WaitsFor x s u := by
  rcases hop with rfl | rfl
  · have hg : t.gated = true := by simp [State.gated, ht.paused]
    cases (stepInstruction_of_gated hg).symm.trans h
    exact ht
  · cases h
    exact ⟨ht.registers, ht.pc, ht.paused, ht.waitX, ht.halted⟩

/-- Settles O46: Steps and ticks keep the wait, by induction on their list, and the delivery writes the register the wait is
for. -/
theorem waitForKeyLastsUntilADelivery : Obligations.WaitForKeyLastsUntilADelivery := by
  refine fun x s => ⟨rfl, fun ops k hh hops => ?_⟩
  obtain ⟨t, ht, hwait⟩ := performAll_induction (P := WaitsFor x s)
    (fun op hop t u => perform_waitsFor (hops op hop)) (s := s.beginWait x) ⟨rfl, rfl, rfl, rfl, hh⟩
  obtain ⟨hdeliver, -⟩ := keyDeliveryEndsOnlyAWait
  obtain ⟨u, hu, hx, hothers, hrest⟩ := hdeliver t k hwait.halted hwait.paused
  have hV : ∀ y, t.getV y = s.getV y := fun y => by rw [State.getV, State.getV, hwait.registers]
  have hpaused := congrArg State.paused hrest
  have hpc := congrArg State.pc hrest
  rw [hwait.waitX] at hx hothers
  exact ⟨t, u, ht, hwait.registers, hwait.pc, hwait.paused, performAll_cons hu, hpaused, hpc.trans hwait.pc, hx,
    fun y hy => (hothers y hy).trans (hV y)⟩

end Sys2Proof.Machine
end

section
/-! Control transfer, the 8xy_ family, random, and the key and timer moves (spec/41_flow.md R140 to R147, spec/42_alu.md
R162 to R173, spec/45_keys_timers.md R220 to R225). -/

namespace Sys2Proof.Machine

open Sys2Proof.Claims

/-! ## Control transfer -/

/-- Settles O22: the error record is `State.raiseIn`, the pop two updates of the state. -/
theorem returnPopsOrUnderflows : Obligations.ReturnPopsOrUnderflows :=
  ⟨fun _ _ _ => exec_ret_of_cons, fun _ => exec_ret_of_nil⟩

theorem encode_call (nnn : Imm12) : encode (.call nnn) = 0x2000#16 ||| nnn.setWidth 16 := by
  rw [encode, encNNN, place, BitVec.shiftLeft_zero]
  rfl

/-- Settles O23: the recorded word is the call's encoding, 0x2000 with nnn in place. -/
theorem callPushesOrOverflows : Obligations.CallPushesOrOverflows := by
  refine ⟨fun _ _ => exec_call_of_not_full, fun nnn s hs => ?_⟩
  rw [exec_call_of_full hs, ← encode_call]
  rfl

theorem exec_seReg (x y : Nibble) (s : State) :
    exec (.seReg x y) s = .next (s.skipIf (s.getV x == s.getV y)) := rfl

theorem exec_sneReg (x y : Nibble) (s : State) :
    exec (.sneReg x y) s = .next (s.skipIf (s.getV x != s.getV y)) := rfl

/-- Settles O25: both skips are `State.skipIf`, on the test for equality and on its negation. -/
theorem registerSkips : Obligations.RegisterSkips := by
  refine ⟨hasRow_at 6 rfl, hasRow_at 18 rfl, fun x y s => ⟨?_, ?_⟩⟩
  · rw [exec_seReg, State.skipIf_eq_update s beq_iff_eq]
  · rw [exec_sneReg, State.skipIf_eq_update s bne_iff_ne]

theorem exec_jpV0 (nnn : Imm12) (s : State) :
    exec (.jpV0 nnn) s = .next (s.setPc (immAddr nnn + byteAddr (s.getV 0))) := rfl

/-- Settles O26: 4095 plus 255 fits in 16 bits, so the sum is exact. -/
theorem jumpWithOffsetAddsV0 : Obligations.JumpWithOffsetAddsV0 := by
  refine ⟨hasRow_at 20 rfl, fun nnn s => ⟨_, exec_jpV0 nnn s, ?_⟩⟩
  have hn : nnn.toNat < 4096 := nnn.isLt
  have hb : (s.getV 0).toNat < 256 := (s.getV 0).isLt
  have himm : (immAddr nnn).toNat = nnn.toNat := BitVec.toNat_setWidth_of_le (by decide)
  have hsum : (immAddr nnn + byteAddr (s.getV 0)).toNat = nnn.toNat + (s.getV 0).toNat := by
    rw [BitVec.toNat_add, himm, toNat_byteAddr]
    omega
  exact ⟨hsum, by rw [State.setPc_pc, hsum]; omega, rfl⟩

/-! ## Moves and logic -/

/-- Settles O29: each of the four is one register write. -/
theorem movesAndLogicWriteOnlyVx : Obligations.MovesAndLogicWriteOnlyVx := fun x _ s =>
  ⟨⟨_, rfl, s.writesReg_setV x _⟩, ⟨_, rfl, s.writesReg_setV x _⟩, ⟨_, rfl, s.writesReg_setV x _⟩,
    ⟨_, rfl, s.writesReg_setV x _⟩⟩

/-! ## Results and flags -/

/-- With x other than F, the two writes of a flag-producing instruction are the whole effect that `WritesRegAndFlag`
allows. -/
theorem State.writesRegAndFlag_writeFlagged (s : State) {x : Nibble} (hx : x ≠ 0xF) {flag result : Byte} {b f : Nat}
    (hb : result.toNat = b) (hf : flag.toNat = f) : WritesRegAndFlag s (s.writeFlagged x flag result) x b f :=
  ⟨by rw [State.writeFlagged_eq, State.setV_getV_same, hb], by rw [s.writeFlagged_getV_flag hx, hf],
    fun _ hy hyf => s.writeFlagged_getV_of_ne hy hyf flag result, rfl⟩

theorem carryFlag_toNat (a b : Byte) : (carryFlag a b).toNat = if a.toNat + b.toNat > 255 then 1 else 0 := by
  simp [carryFlag]

theorem greaterFlag_toNat (a b : Byte) : (greaterFlag a b).toNat = if a.toNat > b.toNat then 1 else 0 := by
  simp [greaterFlag]

/-- A flag that copies bit k is that binary digit. -/
theorem flagByte_getLsbD_toNat (a : Byte) (k : Nat) : (flagByte (a.getLsbD k)).toNat = a.toNat / 2 ^ k % 2 := by
  rw [flagByte_toNat, BitVec.getLsbD, Nat.testBit_eq_decide_div_mod_eq]
  have := Nat.mod_lt (a.toNat / 2 ^ k) (show 0 < 2 by decide)
  simp only [decide_eq_true_eq]
  split <;> omega

theorem lowBitFlag_toNat (a : Byte) : (lowBitFlag a).toNat = a.toNat % 2 := by
  rw [lowBitFlag, flagByte_getLsbD_toNat, Nat.pow_zero, Nat.div_one]

theorem highBitFlag_toNat (a : Byte) : (highBitFlag a).toNat = a.toNat / 128 := by
  have ha := a.isLt
  rw [highBitFlag, flagByte_getLsbD_toNat]
  omega

/-- Subtraction of bytes as the spec writes it (R172). -/
theorem toNat_sub_byte (a b : Byte) :
    (a - b).toNat = if a.toNat ≥ b.toNat then a.toNat - b.toNat else a.toNat + 256 - b.toNat := by
  have ha := a.isLt
  have hb := b.isLt
  rw [BitVec.toNat_sub]
  split <;> omega

theorem toNat_shiftRight_one (a : Byte) : (a >>> 1).toNat = a.toNat / 2 := by
  rw [BitVec.toNat_ushiftRight, Nat.shiftRight_eq_div_pow]

theorem toNat_shiftLeft_one (a : Byte) : (a <<< 1).toNat = 2 * a.toNat % 256 := by
  rw [BitVec.toNat_shiftLeft, Nat.shiftLeft_eq, Nat.mul_comm]

/-- Settles O30: each of the five is `State.writeFlagged`, of a result and a flag that are these numbers. -/
theorem aluResultsAndFlags : Obligations.AluResultsAndFlags := fun _ _ s hx =>
  ⟨⟨_, rfl, s.writesRegAndFlag_writeFlagged hx (BitVec.toNat_add _ _) (carryFlag_toNat _ _)⟩,
    ⟨_, rfl, s.writesRegAndFlag_writeFlagged hx (toNat_sub_byte _ _) (greaterFlag_toNat _ _)⟩,
    ⟨_, rfl, s.writesRegAndFlag_writeFlagged hx (toNat_shiftRight_one _) (lowBitFlag_toNat _)⟩,
    ⟨_, rfl, s.writesRegAndFlag_writeFlagged hx (toNat_sub_byte _ _) (greaterFlag_toNat _ _)⟩,
    ⟨_, rfl, s.writesRegAndFlag_writeFlagged hx (toNat_shiftLeft_one _) (highBitFlag_toNat _)⟩⟩

/-- With VF as the destination the second write replaces the first (R173). -/
theorem State.writeFlagged_flagReg (s : State) (flag result : Byte) :
    s.writeFlagged 0xF flag result = s.setV 0xF result := by
  simp [State.setV]

theorem State.writesReg_writeFlagged (s : State) (flag result : Byte) :
    WritesReg s (s.writeFlagged 0xF flag result) 0xF result := by
  rw [s.writeFlagged_flagReg]
  exact s.writesReg_setV 0xF result

/-- Settles O31: each of the five is `State.writeFlagged` with VF as the destination. -/
theorem aluResultReplacesTheFlagInVF : Obligations.AluResultReplacesTheFlagInVF := fun _ s =>
  ⟨⟨_, rfl, s.writesReg_writeFlagged _ _⟩, ⟨_, rfl, s.writesReg_writeFlagged _ _⟩, ⟨_, rfl, s.writesReg_writeFlagged _ _⟩,
    ⟨_, rfl, s.writesReg_writeFlagged _ _⟩, ⟨_, rfl, s.writesReg_writeFlagged _ _⟩⟩

/-! ## Random -/

theorem exec_rnd (x : Nibble) (kk : Byte) (s : State) :
    exec (.rnd x kk) s = .next (s.takeDraw.setV x (s.drawNow &&& kk)) := rfl

/-- Settles O32: the write of the masked draw, on the state whose record of draws alone has moved; surroundings that have
scripted r draw r. -/
theorem randomIsADrawMasked : Obligations.RandomIsADrawMasked := by
  refine ⟨fun x kk s => ?_, fun x kk r s => ?_⟩
  · obtain ⟨hx, hothers, -⟩ := s.takeDraw.writesReg_setV x (s.drawNow &&& kk)
    have hmask : s.drawNow &&& kk &&& ~~~kk = 0 := by
      rw [BitVec.and_assoc, BitVec.and_not_self]; exact BitVec.and_zero
    exact ⟨_, exec_rnd x kk s, hx, by rw [hx, hmask], hothers, rfl, rfl⟩
  · exact ⟨{ s.env with draws := [r] }, _, exec_rnd x kk _, State.setV_getV_same _ x (r &&& kk)⟩

/-! ## Keys and timers -/

/-- Settles O44: one sample is taken, and `pc` is skipped on by the level of the key. -/
theorem keySkipsSampleTheKeys : Obligations.KeySkipsSampleTheKeys :=
  ⟨hasRow_at 23 rfl, hasRow_at 24 rfl, fun x s => ⟨exec_skp x s, exec_sknp x s⟩⟩

/-- Settles O45: one register write, and one write to each timer. -/
theorem timerMoves : Obligations.TimerMoves :=
  ⟨hasRow_at 25 rfl, hasRow_at 27 rfl, hasRow_at 28 rfl,
    fun x s => ⟨⟨_, rfl, s.writesReg_setV x s.DT⟩, rfl, exec_ldSTVx x s⟩⟩

end Sys2Proof.Machine
end

section
/-! Drawing sprites (spec/44_display.md R201, R202). -/

namespace Sys2Proof.Machine

open Sys2Proof.Claims

/-- The pixel under sprite position (r, c) is covered when that sprite bit is set: rows and columns of one sprite are
different pixels even after the wrap. -/
theorem spriteCovers_at (col row : Nat) {bs : List Byte} (hl : bs.length ≤ 32) {r c : Nat} (hr : r < bs.length)
    (hc : c < 8) : spriteCovers col row bs (row + r) (col + c) = (bs[r]).getLsbD (7 - c) := by
  rw [Bool.eq_iff_iff, spriteCovers_iff]
  constructor
  · rintro ⟨r', hr', c', hc', hbit, hrow, hcol⟩
    obtain rfl : r' = r := by omega
    obtain rfl : c' = c := by omega
    exact hbit
  · exact fun hbit => ⟨r, hr, c, hc, hbit, rfl, rfl⟩

variable (s : State) (x y n : Nibble)

theorem exec_drw : exec (.drw x y n) s =
    .next ((s.setFb (s.drawn x y n).1).setV 0xF (flagByte (s.drawn x y n).2)) := rfl

/-- What a draw leaves of every pixel. -/
theorem State.drawn_pixel (row col : Nat) : Frame.pixel (s.drawn x y n).1 row col =
    (Frame.pixel s.fb row col ^^ spriteCovers (s.getV x).toNat (s.getV y).toNat (s.sprite n) row col) :=
  drawSprite_pixel _ _ _ _ (s.sprite_length_le n) row col

/-- The pixel under sprite position (r, c) is exclusive-ored with the sprite bit. -/
theorem State.drawn_pixel_at {r c : Nat} (hr : r < n.toNat) (hc : c < 8) :
    Frame.pixel (s.drawn x y n).1 ((s.getV y).toNat + r) ((s.getV x).toNat + c) =
      (Frame.pixel s.fb ((s.getV y).toNat + r) ((s.getV x).toNat + c) ^^
        (s.memRead (s.I.toNat + r)).getLsbD (7 - c)) := by
  have hr' : r < (s.sprite n).length := by rwa [s.sprite_length]
  rw [s.drawn_pixel, spriteCovers_at _ _ (s.sprite_length_le n) hr' hc, s.sprite_getElem]

/-- A pixel under no sprite position is left alone. -/
theorem State.drawn_pixel_outside {row col : Nat} (hout : ∀ r c, r < n.toNat → c < 8 →
      ¬ (row % 32 = ((s.getV y).toNat + r) % 32 ∧ col % 64 = ((s.getV x).toNat + c) % 64)) :
    Frame.pixel (s.drawn x y n).1 row col = Frame.pixel s.fb row col := by
  have hnot : spriteCovers (s.getV x).toNat (s.getV y).toNat (s.sprite n) row col = false := by
    rw [Bool.eq_false_iff, ne_eq, spriteCovers_iff]
    rintro ⟨r, hr, c, hc, -, hrow, hcol⟩
    exact hout r c (by rwa [s.sprite_length] at hr) hc ⟨hrow, hcol⟩
  rw [s.drawn_pixel, hnot, Bool.xor_false]

/-- The collision of a draw is the spec's. -/
theorem State.drawn_hit : (s.drawn x y n).2 = true ↔ Collides s x y n := by
  rw [State.drawn, drawSprite_hit _ _ _ _ (s.sprite_length_le n), spriteHits_iff]
  simp only [State.sprite_getElem, State.sprite_length, Collides]
  constructor
  · rintro ⟨r, hr, c, hc, hbit, hpixel⟩
    exact ⟨r, c, hr, hc, hbit, hpixel⟩
  · rintro ⟨r, c, hr, hc, hbit, hpixel⟩
    exact ⟨r, hr, c, hc, hbit, hpixel⟩

/-- Settles O42: the frame drawn pixel by pixel, and one write to VF after it. -/
theorem drawIsOneParallelUpdate : Obligations.DrawIsOneParallelUpdate := by
  intro x y n s
  obtain ⟨hflag, hothers, -⟩ := (s.setFb (s.drawn x y n).1).writesReg_setV 0xF (flagByte (s.drawn x y n).2)
  refine ⟨_, exec_drw s x y n, fun r c hr hc => s.drawn_pixel_at x y n hr hc,
    fun row col hout => s.drawn_pixel_outside x y n hout, fun hit => ?_, fun hit => ?_, hothers, rfl⟩
  · rw [hflag, (s.drawn_hit x y n).mpr hit]; rfl
  · rw [hflag, Bool.eq_false_iff.mpr (mt (s.drawn_hit x y n).mp hit)]; rfl

/-! ## Drawing twice -/

section Redraw

variable {s x y n} {t : State} (h : exec (.drw x y n) s = .next t)
include h

theorem exec_drw_fb : t.fb = (s.drawn x y n).1 := by cases h; rfl

theorem exec_drw_sprite : t.sprite n = s.sprite n := by cases h; rfl

theorem exec_drw_memRead (a : Nat) : t.memRead (t.I.toNat + a) = s.memRead (s.I.toNat + a) := by cases h; rfl

theorem exec_drw_flag : t.getV 0xF = flagByte (s.drawn x y n).2 := by
  cases h; exact State.setV_getV_same _ _ _

theorem exec_drw_getV {z : Nibble} (hz : z ≠ 0xF) : t.getV z = s.getV z := by
  cases h; exact State.setV_getV_of_ne _ hz _

end Redraw

theorem exists_bit_of_ne_zero {b : Byte} (hb : b ≠ 0) : ∃ c, c < 8 ∧ b.getLsbD (7 - c) = true := by
  by_contra hnone
  refine hb (BitVec.eq_of_getLsbD_eq fun i hi => ?_)
  have hbit : b.getLsbD (7 - (7 - i)) ≠ true := fun hset => hnone ⟨7 - i, by omega, hset⟩
  rw [show 7 - (7 - i) = i by omega] at hbit
  rw [Bool.eq_false_iff.mpr hbit]
  exact BitVec.getLsbD_zero.symm

theorem not_collides_of_blank {s : State} (hblank : ∀ row col, Frame.pixel s.fb row col = false) (x y n : Nibble) :
    ¬ Collides s x y n := by
  rintro ⟨r, c, -, -, -, hpixel⟩
  exact absurd ((hblank _ _).symm.trans hpixel) Bool.false_ne_true

/-- After a draw onto a blank screen a set pixel lies under every set sprite bit, so the same draw collides. -/
theorem collides_of_drawn_on_blank {s t : State} {x y n : Nibble} (hx : x ≠ 0xF) (hy : y ≠ 0xF)
    (h : exec (.drw x y n) s = .next t) (hblank : ∀ row col, Frame.pixel s.fb row col = false) {r : Nat}
    (hr : r < n.toNat) (hbyte : s.memRead (s.I.toNat + r) ≠ 0) : Collides t x y n := by
  obtain ⟨c, hc, hbit⟩ := exists_bit_of_ne_zero hbyte
  refine ⟨r, c, hr, hc, by rw [exec_drw_memRead h, hbit], ?_⟩
  rw [exec_drw_getV h hx, exec_drw_getV h hy, exec_drw_fb h, s.drawn_pixel_at x y n hr hc, hblank, hbit]
  rfl

/-- Settles O43: coordinates, sprite and index are the same in the second draw, so it covers the same pixels, and on a blank
screen the first draw has left a set pixel under every set sprite bit. -/
theorem drawingTwiceRestoresTheScreen : Obligations.DrawingTwiceRestoresTheScreen := by
  intro x y n s t u hx hy h₁ h₂
  refine ⟨Frame.ext_pixel fun row col => ?_, fun hblank => ⟨?_, fun ⟨r, hr, hbyte⟩ => ?_⟩⟩
  · rw [exec_drw_fb h₂, t.drawn_pixel, exec_drw_fb h₁, s.drawn_pixel, exec_drw_getV h₁ hx, exec_drw_getV h₁ hy,
      exec_drw_sprite h₁, Bool.xor_assoc, Bool.xor_self, Bool.xor_false]
  · have hmiss : (s.drawn x y n).2 = false :=
      Bool.eq_false_iff.mpr (mt (s.drawn_hit x y n).mp (not_collides_of_blank hblank x y n))
    rw [exec_drw_flag h₁, hmiss]; rfl
  · have hhit : (t.drawn x y n).2 = true := (t.drawn_hit x y n).mpr (collides_of_drawn_on_blank hx hy h₁ hblank hr hbyte)
    rw [exec_drw_flag h₂, hhit]; rfl

end Sys2Proof.Machine
end
